-- ==== Sys2Proof/Word.lean ====
section
/-! DEFINITION. The word types: the serial data unit of 8 bits and the host command word of 16 bits (00_scope.md R13). -/

namespace Sys2Proof

/-- The 8-bit serial data unit (R13). -/
abbrev Byte := BitVec 8

/-- The 16-bit host command word (R80). -/
abbrev Word := BitVec 16

end Sys2Proof
end

