-- ==== Sys2Proof/Syntax.lean ====
section
/-! DEFINITION. The instructions: one constructor per row of spec/opcode_table.json. -/

namespace Sys2Proof

/-- Every row of the opcode table. The first seven are the host operations of 30_encoding.md R84, the next two the
illegal classes (a) and (b) of R87, the last six the serial command bytes of R93, which the peer executes. -/
inductive Instr where
  /-- CONFIGURE (40_pin_control.md R110) -/
  | configure
  /-- OPEN (R114); `open` is a word of Lean -/
  | openTxn
  /-- CLOSE (R116) -/
  | closeTxn
  /-- SEND_BYTE v (41_send_byte.md R125) -/
  | sendByte (v : Byte)
  /-- READ_KEYBOARD (42_read_keyboard.md R140) -/
  | readKeyboard
  /-- SET_BRIGHTNESS v (43_display_commands.md R155) -/
  | setBrightness (v : Byte)
  /-- CLEAR_DISPLAY (R159) -/
  | clearDisplay
  /-- a word whose `op` is the reserved value 0b111 (R87 b); its whole word is 0x0700 | arg -/
  | reservedOp7 (arg : Byte)
  /-- a word with a bit of `rsv` set (R87 a), with its three fields -/
  | rsvNonZero (rsv : BitVec 5) (op : BitVec 3) (arg : Byte)
  /-- 0x40, address-auto-increment (R93) -/
  | serAddrAutoInc
  /-- 0x44, fixed-address (R93) -/
  | serFixedAddr
  /-- 0x42, read-key-scan (R93) -/
  | serReadKeyScan
  /-- 0x80, display-off (R93) -/
  | serDisplayOff
  /-- 0x88 | b, set-brightness (R93, R94) -/
  | serSetBrightness (b : BitVec 3)
  /-- 0xC0 | a, set-address (R93, R94) -/
  | serSetAddress (a : BitVec 4)
deriving DecidableEq, Repr

end Sys2Proof
end

