-- ==== Sys2Proof/WellFormed.lean ====
section
/-! DEFINITION. Which terms of Instr stand for an encoding. Every field's range is its type's, so one check is left: a word of class (a) of 30_encoding.md R87 has a bit of `rsv` set. -/

namespace Sys2Proof

/-- `i` is an instruction some word or byte encodes. -/
def Instr.wellFormed : Instr → Bool
  | .configure => true
  | .openTxn => true
  | .closeTxn => true
  | .sendByte _ => true
  | .readKeyboard => true
  | .setBrightness _ => true
  | .clearDisplay => true
  | .reservedOp7 _ => true
  | .rsvNonZero rsv _ _ => rsv != 0
  | .serAddrAutoInc => true
  | .serFixedAddr => true
  | .serReadKeyScan => true
  | .serDisplayOff => true
  | .serSetBrightness _ => true
  | .serSetAddress _ => true

/-- The check as a proposition. -/
abbrev Instr.WellFormed (i : Instr) : Prop := i.wellFormed = true

end Sys2Proof
end

