-- ==== Sys2Proof/Decode.lean ====
section
/-! DEFINITION. Decoding, total on every host word and every serial byte, rejecting by name; then the encoder, written from the same tables (30_encoding.md R80 to R88 and R92 to R95). -/

namespace Sys2Proof

/-! ### Fields of the host command word (R80) -/

/-- `rsv = w[15:11]` (R83). -/
def Word.rsv (w : Word) : BitVec 5 := w.extractLsb' 11 5

/-- `op = w[10:8]` (R81). -/
def Word.op (w : Word) : BitVec 3 := w.extractLsb' 8 3

/-- `arg = w[7:0]` (R82). -/
def Word.arg (w : Word) : Byte := w.extractLsb' 0 8

/-- A host word from its fields, the most significant first (R80). -/
def hostWord (rsv : BitVec 5) (op : BitVec 3) (arg : Byte) : Word := rsv ++ op ++ arg

/-! ### Operations (R84) -/

/-- The seven operations of the opcode map. -/
inductive Op where
  | configure
  | openTxn
  | closeTxn
  | sendByte
  | readKeyboard
  | setBrightness
  | clearDisplay
deriving DecidableEq, Repr

/-- The `op` code of an operation (R84). -/
def Op.code : Op → BitVec 3
  | .configure => 0b000
  | .openTxn => 0b001
  | .closeTxn => 0b010
  | .sendByte => 0b011
  | .readKeyboard => 0b100
  | .setBrightness => 0b101
  | .clearDisplay => 0b110

/-- The operation of a code; none for the reserved value 0b111 (R84). -/
def Op.ofCode (c : BitVec 3) : Option Op :=
  if c = 0b000 then some .configure
  else if c = 0b001 then some .openTxn
  else if c = 0b010 then some .closeTxn
  else if c = 0b011 then some .sendByte
  else if c = 0b100 then some .readKeyboard
  else if c = 0b101 then some .setBrightness
  else if c = 0b110 then some .clearDisplay
  else none

/-- Whether an operation takes its argument (R84, column "takes arg"). -/
def Op.takesArg : Op → Bool
  | .sendByte => true
  | .setBrightness => true
  | .configure => false
  | .openTxn => false
  | .closeTxn => false
  | .readKeyboard => false
  | .clearDisplay => false

/-- The instruction of an operation with its argument. -/
def Op.instr (op : Op) (arg : Byte) : Instr :=
  match op with
  | .configure => .configure
  | .openTxn => .openTxn
  | .closeTxn => .closeTxn
  | .sendByte => .sendByte arg
  | .readKeyboard => .readKeyboard
  | .setBrightness => .setBrightness arg
  | .clearDisplay => .clearDisplay

/-- `legal(w)`, as one function of the word (R86). -/
def legal (w : Word) : Bool :=
  w.rsv == 0 && w.op != 0b111 && (w.op == 0b011 || w.op == 0b101 || w.arg == 0x00)

/-! ### Serial command bytes, the closed set of R93 and R95 -/

/-- address-auto-increment -/
def Ser.addrAutoInc : Byte := 0x40
/-- fixed-address -/
def Ser.fixedAddr : Byte := 0x44
/-- read-key-scan -/
def Ser.readKeyScan : Byte := 0x42
/-- display-off -/
def Ser.displayOff : Byte := 0x80
/-- set-brightness base -/
def Ser.brightnessBase : Byte := 0x88
/-- set-address base -/
def Ser.addressBase : Byte := 0xC0

/-- `SET_BRIGHTNESS(b) = 0x88 | b[2:0]` (R94). -/
def Ser.setBrightness (b : BitVec 3) : Byte := Ser.brightnessBase ||| b.setWidth 8

/-- `SET_ADDRESS(a) = 0xC0 | a[3:0]` (R94). -/
def Ser.setAddress (a : BitVec 4) : Byte := Ser.addressBase ||| a.setWidth 8

/-! ### Decoding -/

/-- Why a word or byte is no instruction of the table. -/
inductive DecodeReject where
  /-- class (c) of R87: an operation without a parameter and a non-zero `arg` (R85). The block answers with
  IllegalCommand; the table has no row for it. -/
  | argNotZero (op : BitVec 3) (arg : Byte)
  /-- a byte outside the command list of R93; the peer's answer is in no source (R96, N8). -/
  | notACommandByte (b : Byte)
deriving DecidableEq, Repr

/-- Decoding of a host word (R88), with the two illegal classes that have a row of the table as instructions. Class
(a) of R87 is looked at first: an illegal word has one cause code whatever the number of reasons (R179). -/
def decodeWord (w : Word) : Except DecodeReject Instr :=
  if w.rsv ≠ 0 then .ok (.rsvNonZero w.rsv w.op w.arg)
  else
    match Op.ofCode w.op with
    | none => .ok (.reservedOp7 w.arg)
    | some op =>
      if op.takesArg || w.arg == 0x00 then .ok (op.instr w.arg)
      else .error (.argNotZero w.op w.arg)

/-- Decoding of a serial command byte (R93: match and mask of each row). -/
def decodeSerial (b : Byte) : Except DecodeReject Instr :=
  if b = Ser.addrAutoInc then .ok .serAddrAutoInc
  else if b = Ser.fixedAddr then .ok .serFixedAddr
  else if b = Ser.readKeyScan then .ok .serReadKeyScan
  else if b = Ser.displayOff then .ok .serDisplayOff
  else if b &&& 0xF8 = Ser.brightnessBase then .ok (.serSetBrightness (b.extractLsb' 0 3))
  else if b &&& 0xF0 = Ser.addressBase then .ok (.serSetAddress (b.extractLsb' 0 4))
  else .error (.notACommandByte b)

/-- An instruction's bits, in one of the table's two formats. -/
inductive Encoding where
  /-- format host16 -/
  | host16 (w : Word)
  /-- format serial8 -/
  | serial8 (b : Byte)
deriving DecidableEq, Repr

/-- The decoder over both formats. -/
def decode : Encoding → Except DecodeReject Instr
  | .host16 w => decodeWord w
  | .serial8 b => decodeSerial b

/-- The instruction the decoder reads from `nbits` bits `w`, numbered as the table numbers them: a host word is
one 16-bit word, a serial command one byte. -/
def decodeTableWord (nbits w : Nat) : Option Instr :=
  if nbits = 16 then (decodeWord (BitVec.ofNat 16 w)).toOption
  else if nbits = 8 then (decodeSerial (BitVec.ofNat 8 w)).toOption
  else none

/-! ### Encoding -/

/-- The bits of an instruction (R84, R87, R93, R94). -/
def encode : Instr → Encoding
  | .configure => .host16 (hostWord 0 Op.configure.code 0)
  | .openTxn => .host16 (hostWord 0 Op.openTxn.code 0)
  | .closeTxn => .host16 (hostWord 0 Op.closeTxn.code 0)
  | .sendByte v => .host16 (hostWord 0 Op.sendByte.code v)
  | .readKeyboard => .host16 (hostWord 0 Op.readKeyboard.code 0)
  | .setBrightness v => .host16 (hostWord 0 Op.setBrightness.code v)
  | .clearDisplay => .host16 (hostWord 0 Op.clearDisplay.code 0)
  | .reservedOp7 arg => .host16 (hostWord 0 0b111 arg)
  | .rsvNonZero rsv op arg => .host16 (hostWord rsv op arg)
  | .serAddrAutoInc => .serial8 Ser.addrAutoInc
  | .serFixedAddr => .serial8 Ser.fixedAddr
  | .serReadKeyScan => .serial8 Ser.readKeyScan
  | .serDisplayOff => .serial8 Ser.displayOff
  | .serSetBrightness b => .serial8 (Ser.setBrightness b)
  | .serSetAddress a => .serial8 (Ser.setAddress a)

end Sys2Proof
end

