-- ==== Sys2Proof/Config.lean ====
section
/-! DEFINITION. What the spec leaves to an implementation or to the peer chip: parameters and free values. Each constant without a body is opaque, so that no proof can rest on its value. -/

namespace Sys2Proof

/-- The peer's two addressing modes (20_memory.md R69). -/
inductive AddrMode where
  /-- after 0x40: the pointer advances by 1 with each data byte -/
  | autoInc
  /-- after 0x44: the pointer stays -/
  | fixed
deriving DecidableEq, Repr, Inhabited

/-- `T_D_MIN` in microseconds (00_scope.md R8). -/
def Config.tDMinMicroseconds : Nat := 5

/-- `KEY_BYTES` (R10). -/
def Config.keyBytes : Nat := 4

/-- `MAX_ADDR` (R11). -/
def Config.maxAddr : Nat := 0x0F

/-- `DISPLAY_CELLS` (R11). -/
def Config.displayCells : Nat := 16

/-- `MAX_BRIGHT` (R12). -/
def Config.maxBright : Byte := 0x07

/-- One less than `F_CLK` in hertz: the frequency of `sysclk_i` is an open parameter (R9, U5; log 15). -/
opaque Config.fClkLessOne : Nat

/-- How many cycles an implementation adds to the least delay that meets `T_D_MIN`: "implementations may round
up but never down" (R8, R9, U5; log 15). -/
opaque Config.delayExtra : Nat

/-- FREE VALUE: the DIO level of draw `n` (60_exceptions.md R190, U3; log 4). -/
opaque Config.dioDraw : Nat → Bool

/-- PARAMETER `PEER_POWERUP_MODE`: the peer's addressing mode before any mode command (R69, U9; log 7). -/
opaque Config.peerPowerupMode : AddrMode

/-- FREE VALUE: the peer's address pointer before any set-address command (U9; log 7). -/
opaque Config.peerPowerupPtr : BitVec 4

/-- PARAMETER `PEER_ADDR_WRAP`: the cell the pointer stands at after it has advanced past 0x0F; `none`: no cell,
a data byte is then written nowhere (R69, U8, N9; log 8). -/
opaque Config.peerAddrWrap : Option (BitVec 4)

/-- FREE VALUE: the byte of a display cell to which no byte is known to have been written, by the peer's epoch and
the address (U9, U10; logs 7 and 9). -/
opaque Config.freeCell : Nat → BitVec 4 → Byte

/-- FREE VALUE: the brightness before any set-brightness command (U9; log 7). -/
opaque Config.peerPowerupBrightness : BitVec 3

/-- FREE VALUE: whether the display is on where the spec does not say (U9, U11; logs 7 and 10). -/
opaque Config.freeDisplayOn : Nat → Bool

end Sys2Proof
end

