-- ==== Sys2Proof/Machine/State.lean ====
section
/-! DEFINITION. The machine's state as plain data: the block (10_state.md), the spec's ghosts (R55), the peer chip (20_memory.md R69), and the environment (host, platform, DIO levels) that decides what happens next. -/

namespace Sys2Proof.Machine

/-- The three pins (00_scope.md section 5). -/
inductive Pin where
  /-- strobe -/
  | stb
  /-- serial clock -/
  | clk
  /-- data -/
  | dio
deriving DecidableEq, Repr

/-- A set of pins, the `S` of `SetDir(S, d)` (R17). -/
structure PinSet where
  stb : Bool
  clk : Bool
  dio : Bool
deriving DecidableEq, Repr

/-- The events the micro-operations and a rejection emit (R16 to R20, R170). -/
inductive Event where
  | pin (p : Pin) (v : Bool)
  | dir (S : PinSet) (d : Bool)
  | delay
  | sample (j : Fin 8) (b : Bool)
  | store (k : Fin 4) (v : Byte)
  | rejected (w : Word)
deriving DecidableEq, Repr

/-- The five violation kinds (60_exceptions.md R173 to R177). -/
inductive Violation where
  /-- V_UNCONFIGURED, code 1 -/
  | unconfigured
  /-- V_NESTED_OPEN, code 2 -/
  | nestedOpen
  /-- V_CLOSE_IDLE, code 3 -/
  | closeIdle
  /-- V_SEND_IDLE, code 4 -/
  | sendIdle
  /-- V_RESET_ABORT, code 5 -/
  | resetAbort
deriving DecidableEq, Repr

/-- A set of violation kinds (R172), one Bool a kind. -/
structure ViolSet where
  unconfigured : Bool
  nestedOpen : Bool
  closeIdle : Bool
  sendIdle : Bool
  resetAbort : Bool
deriving DecidableEq, Repr

/-- The two flip-flops of the DIO synchroniser (R33): `second` is `dio_in`. -/
structure Sync where
  first : Bool
  second : Bool
deriving DecidableEq, Repr

/-- The peer's display memory (R68): address and byte, addresses strictly rising; an unlisted cell has no known byte. -/
abbrev Memory := List Host.Cell

/-- The peer's addressing mode: none commanded since power-up, or one of the two (R69; log 7). -/
inductive PeerMode where
  /-- no mode command yet: the mode is the parameter `Config.peerPowerupMode` -/
  | powerup
  | set (m : AddrMode)
deriving DecidableEq, Repr

/-- The peer's address pointer (R69; logs 7 and 8). -/
inductive PeerPtr where
  /-- no set-address yet: the pointer is the free value `Config.peerPowerupPtr` -/
  | powerup
  /-- at a cell -/
  | cell (a : BitVec 4)
  /-- advanced past 0x0F: the parameter `Config.peerAddrWrap` says where it stands -/
  | pastEnd
deriving DecidableEq, Repr

/-- The peer's brightness (R187). -/
inductive PeerBrightness where
  /-- none commanded yet: the free value `Config.peerPowerupBrightness` -/
  | powerup
  | level (b : BitVec 3)
deriving DecidableEq, Repr

/-- Whether the display is on (R187, U11; log 10). -/
inductive DisplayPower where
  /-- turned off by 0x80 -/
  | off
  /-- not stated by the spec: the free value `Config.freeDisplayOn n` -/
  | unstated (n : Nat)
deriving DecidableEq, Repr

/-- Where the peer is in a transaction (30_encoding.md R92, 41_send_byte.md R129). -/
inductive PeerPhase where
  /-- no transaction -/
  | idle
  /-- strobe has fallen; the next byte is a command byte -/
  | selected
  /-- a mode or display command has been taken; a further byte has no meaning in the spec -/
  | commanded
  /-- set-address has been taken and `n` data bytes since -/
  | addressed (n : Nat)
  /-- read-key-scan has been taken -/
  | keyScan
deriving DecidableEq, Repr

/-- The peer's registers, as far as the spec gives them (R68, R69, R129, R187). -/
structure PeerRegs where
  mode : PeerMode
  ptr : PeerPtr
  /-- the display memory -/
  cells : Memory
  /-- which free values the unlisted cells have (log 9) -/
  epoch : Nat
  brightness : PeerBrightness
  power : DisplayPower
  /-- the peer's next unused free value (logs 9 and 10) -/
  free : Nat
  phase : PeerPhase
  /-- the bits of the byte being received, the first one first -/
  bits : List Bool
deriving DecidableEq, Repr

/-- The peer: as the reference semantics give it, or undefined, after a violation mark (60_exceptions.md R191) or a
byte to which the spec gives no meaning (U7; log 11). -/
inductive Peer where
  | known (r : PeerRegs)
  | undefined
deriving DecidableEq, Repr

/-- The whole state. INVENTORY.md lists each field with its rule. -/
structure State where
  /-- `stb_q` (R34) -/
  stbQ : Bool
  /-- `clk_q` -/
  clkQ : Bool
  /-- `dio_q` -/
  dioQ : Bool
  /-- `stb_oe` (R35) -/
  stbOe : Bool
  /-- `clk_oe` -/
  clkOe : Bool
  /-- `dio_oe` -/
  dioOe : Bool
  /-- `KEYBUF[0..3]` (R39) -/
  keybuf : Vector Byte 4
  /-- `acc` (R40) -/
  acc : Byte
  /-- `illegal` (R41) -/
  illegal : Bool
  /-- `busy` (R42) -/
  busy : Bool
  /-- `cur_op` (R43) -/
  curOp : BitVec 3
  /-- `arg_q` (R43) -/
  argQ : Byte
  /-- `idx` (R44) -/
  idx : BitVec 10
  /-- `dly` (R45): moved by the clock-edge layer only (log 14); its width is `dlyWidth` of Machine/Cycle.lean, an open
  parameter, and every edge keeps it inside that width (log 26) -/
  dly : Nat
  /-- the DIO synchroniser (R33): moved by the clock-edge layer only (log 14) -/
  sync : Sync
  /-- ghost `viol` (R55, R172) -/
  viol : ViolSet
  /-- ghost `ev` (R55), oldest first -/
  ev : List Event
  /-- the peer chip -/
  peer : Peer
  /-- a command byte the peer has received and not yet executed (log 20) -/
  serialIn : Option Byte
  /-- the host words still to be taken, the one on `cmd_word_i` first; empty: `cmd_valid_i = 0` (R216; log 2) -/
  port : List Word
  /-- the level of `rst_i` at the next steps; unlisted: 0 (log 3) -/
  rstPlan : List Bool
  /-- the levels the peer supplies next on DIO; unlisted: `Config.dioDraw` (R190; log 4) -/
  dioPlan : List Bool
  /-- how many DIO levels have been drawn: the argument of `Config.dioDraw` (log 4) -/
  draws : Nat
deriving DecidableEq, Repr

/-- Why a step can stop with a fault. -/
inductive Fault where
  /-- Raised by the sequencer alone, when `busy = 1` and the trace of `cur_op` has no micro-operation at `idx`. No run
  reaches such a state (10_state.md R44), so stopping is safe (log 16). -/
  | sequencerLost
deriving DecidableEq, Repr

/-- Why a step can refuse an instruction. -/
inductive Refusal where
  /-- Raised by an arm of `exec` whose instruction has no meaning yet. No arm does; safe. -/
  | notModelled (mnemonic : String)
deriving DecidableEq, Repr

/-- The peer at power-up: nothing of it is stated but that no transaction has begun (U9, N10; log 7). -/
def PeerRegs.powerup : PeerRegs where
  mode := .powerup
  ptr := .powerup
  cells := []
  epoch := 0
  brightness := .powerup
  power := .unstated 0
  free := 1
  phase := .idle
  bits := []

/-- The machine right after reset, at the start of a run: the block's values are those of 70_reset_and_hazards.md
R201, the ghosts are empty (R55), the peer is at power-up, and the environment plans nothing. -/
def State.reset : State where
  stbQ := true
  clkQ := true
  dioQ := true
  stbOe := false
  clkOe := false
  dioOe := false
  keybuf := #v[0x00, 0x00, 0x00, 0x00]
  acc := 0x00
  illegal := false
  busy := false
  curOp := 0
  argQ := 0x00
  idx := 0
  dly := 0
  sync := ⟨false, false⟩
  viol := ⟨false, false, false, false, false⟩
  ev := []
  peer := .known PeerRegs.powerup
  serialIn := none
  port := []
  rstPlan := []
  dioPlan := []
  draws := 0

end Sys2Proof.Machine
end

