-- ==== Sys2Proof/Machine/Ops.lean ====
section
/-! DEFINITION. The named operations over the state: pins, violation marks, DIO draws, the key buffer, the peer's display memory, the micro-operations of 00_scope.md section 5, acceptance of a word, the rejection of an illegal word, and reset. -/

namespace Sys2Proof.Machine

/-! ### Pins (10_state.md R34 to R36) -/

/-- The output latch `p_q`. -/
def State.latch (s : State) : Pin → Bool
  | .stb => s.stbQ
  | .clk => s.clkQ
  | .dio => s.dioQ

/-- The direction latch `p_oe`: true is output. -/
def State.oe (s : State) : Pin → Bool
  | .stb => s.stbOe
  | .clk => s.clkOe
  | .dio => s.dioOe

/-- `p_q <- v`. -/
def State.setLatch (p : Pin) (v : Bool) (s : State) : State :=
  match p with
  | .stb => { s with stbQ := v }
  | .clk => { s with clkQ := v }
  | .dio => { s with dioQ := v }

/-- `p_oe <- d` for every pin of `S`, in one step. -/
def State.setOe (S : PinSet) (d : Bool) (s : State) : State :=
  { s with
    stbOe := if S.stb then d else s.stbOe
    clkOe := if S.clk then d else s.clkOe
    dioOe := if S.dio then d else s.dioOe }

/-- Level of a pin on the wire; `z` is a level the block does not drive (R36). -/
inductive Level where
  | low
  | high
  | z
deriving DecidableEq, Repr

/-- The wire level of a pin (R36). -/
def State.wire (s : State) (p : Pin) : Level :=
  if s.oe p then (if s.latch p then .high else .low) else .z

/-! ### Ghosts (R55) -/

/-- `emit e`. -/
def State.emit (e : Event) (s : State) : State := { s with ev := s.ev ++ [e] }

/-- Membership in a set of violation kinds. -/
def ViolSet.has (v : ViolSet) : Violation → Bool
  | .unconfigured => v.unconfigured
  | .nestedOpen => v.nestedOpen
  | .closeIdle => v.closeIdle
  | .sendIdle => v.sendIdle
  | .resetAbort => v.resetAbort

/-- The empty set. -/
def ViolSet.empty : ViolSet := ⟨false, false, false, false, false⟩

/-- The set with one kind more. -/
def ViolSet.add (k : Violation) (v : ViolSet) : ViolSet :=
  match k with
  | .unconfigured => { v with unconfigured := true }
  | .nestedOpen => { v with nestedOpen := true }
  | .closeIdle => { v with closeIdle := true }
  | .sendIdle => { v with sendIdle := true }
  | .resetAbort => { v with resetAbort := true }

/-- `mark V` (R15). From that point the peer's behaviour is given by no source (60_exceptions.md R191). -/
def State.mark (k : Violation) (s : State) : State :=
  { s with viol := s.viol.add k, peer := .undefined }

/-- `mark V` where a condition holds. -/
def State.markIf (c : Bool) (k : Violation) (s : State) : State :=
  if c then s.mark k else s

/-! ### The peer's levels on DIO (60_exceptions.md R190) -/

/-- The level the next draw gives: the planned one, else the free value. -/
def State.drawLevel (s : State) : Bool :=
  match s.dioPlan with
  | b :: _ => b
  | [] => Config.dioDraw s.draws

/-- The state after a draw. -/
def State.afterDraw (s : State) : State :=
  { s with dioPlan := s.dioPlan.tail, draws := s.draws + 1 }

/-! ### The platform's reset input (10_state.md R31) -/

/-- The level of `rst_i` at the coming step. -/
def State.rstLevel (s : State) : Bool := s.rstPlan.headD false

/-- The state with that level used up. -/
def State.afterRstLevel (s : State) : State := { s with rstPlan := s.rstPlan.tail }

/-! ### The peer's display memory (20_memory.md R68) -/

/-- The byte known to stand at address `a`; none: any value (U9). -/
def Memory.read : Memory → Nat → Option Byte
  | [], _ => none
  | (b, v) :: m, a => if a = b then some v else Memory.read m a

/-- Write one byte, keeping the addresses strictly rising. -/
def Memory.write : Memory → Nat → Byte → Memory
  | [], a, v => [(a, v)]
  | (b, w) :: m, a, v =>
    if a < b then (a, v) :: (b, w) :: m
    else if a = b then (a, v) :: m
    else (b, w) :: Memory.write m a v

/-- `b` is above a lower bound, where there is one. -/
def isAbove (lo : Option Nat) (b : Nat) : Bool :=
  match lo with
  | none => true
  | some l => decide (l < b)

/-- Every address of `m` is above `lo`, they rise strictly, and all are cells of the display (R68). -/
def Memory.wfAbove : Memory → Option Nat → Bool
  | [], _ => true
  | (b, _) :: m, lo => isAbove lo b && decide (b < Config.displayCells) && Memory.wfAbove m (some b)

/-- The canonical form: addresses strictly rising, all in 0..15. An unlisted cell reads as nothing known, so no
entry equals what an unlisted one reads as. -/
def Memory.wf (m : Memory) : Bool := Memory.wfAbove m none

/-! ### Micro-operations (00_scope.md R16 to R20) -/

/-- The micro-operations, each one step of the model (R3). -/
inductive MicroOp where
  | setPin (p : Pin) (v : Bool)
  | setDir (S : PinSet) (d : Bool)
  | wait
  | sample (j : Fin 8)
  | store (k : Fin 4)
deriving DecidableEq, Repr

/-- `SetPin(p, v)` (R16). -/
def setPin (p : Pin) (v : Bool) (s : State) : State := (s.setLatch p v).emit (.pin p v)

/-- `SetDir(S, d)` (R17). -/
def setDir (S : PinSet) (d : Bool) (s : State) : State := (s.setOe S d).emit (.dir S d)

/-- `Wait` (R18): no state element changes. -/
def wait (s : State) : State := s.emit .delay

/-- `Sample(j)` (R19), `b` being the level of `dio_in`. -/
def sample (j : Fin 8) (b : Bool) (s : State) : State :=
  { s with acc := s.acc ||| ((BitVec.ofBool b).setWidth 8 <<< j.val) }.emit (.sample j b)

/-- `Store(k)` (R20): the event carries the accumulator's value before the step. -/
def store (k : Fin 4) (s : State) : State :=
  { s with keybuf := s.keybuf.set k.val s.acc, acc := 0x00 }.emit (.store k s.acc)

/-- A micro-operation's effect on the block, with `dioIn` the level a `Sample` reads. -/
def applyMicro (dioIn : Bool) (m : MicroOp) (s : State) : State :=
  match m with
  | .setPin p v => setPin p v s
  | .setDir S d => setDir S d s
  | .wait => wait s
  | .sample j => sample j dioIn s
  | .store k => store k s

/-- Whether a micro-operation reads DIO (R37). -/
def MicroOp.isSample : MicroOp → Bool
  | .sample _ => true
  | .setPin _ _ => false
  | .setDir _ _ => false
  | .wait => false
  | .store _ => false

/-- Whether a micro-operation is a `Wait`. -/
def MicroOp.isWait : MicroOp → Bool
  | .wait => true
  | .setPin _ _ => false
  | .setDir _ _ => false
  | .sample _ => false
  | .store _ => false

/-- A micro-operation's effect on the block where each `Sample` takes the peer's next draw (R19, R33). -/
def performBlock (m : MicroOp) (s : State) : State :=
  if m.isSample then applyMicro s.drawLevel m s.afterDraw else applyMicro false m s

/-! ### Acceptance and rejection (10_state.md R48, 60_exceptions.md R170, R172) -/

/-- Whether an operation's trace begins with OPEN_SEQ (R172). -/
def opensTransaction : Op → Bool
  | .openTxn => true
  | .readKeyboard => true
  | .setBrightness => true
  | .clearDisplay => true
  | .configure => false
  | .closeTxn => false
  | .sendByte => false

/-- `check_violations(op)` (R172). -/
def checkViolations (op : Op) (s : State) : State :=
  s.markIf (decide (op ≠ .configure) && !s.stbOe) .unconfigured
    |>.markIf (opensTransaction op && !s.stbQ) .nestedOpen
    |>.markIf (decide (op = .closeTxn) && s.stbQ) .closeIdle
    |>.markIf (decide (op = .sendByte) && s.stbQ) .sendIdle

/-- Acceptance of a legal word by an idle block (R48): no pin changes. -/
def accept (op : Op) (arg : Byte) (s : State) : State :=
  { checkViolations op s with
    illegal := false, curOp := op.code, argQ := arg, idx := 0, busy := true }

/-- A legal word presented at an edge with `rst_i = 0`: an idle block accepts it, a busy one takes no word (R47,
R179; log 17). -/
def takeCommand (op : Op) (arg : Byte) (s : State) : Host.Outcome State Fault Refusal :=
  .next (if s.busy then s else accept op arg s)

/-- `raise IllegalCommand(w)` (R170), the block's one synchronous error: `illegal <- 1`, one event, nothing else. -/
def raiseIllegal (w : Word) (s : State) : State := { s with illegal := true }.emit (.rejected w)

/-- An illegal word presented at an edge with `rst_i = 0`: an idle block rejects it, a busy one takes no word. There is
no return from a rejection: the block is ready again at once (R180, R181). -/
def takeIllegal (w : Word) (s : State) : Host.Outcome State Fault Refusal :=
  .next (if s.busy then s else raiseIllegal w s)

/-! ### Reset (70_reset_and_hazards.md R200 to R203) -/

/-- An edge with `rst_i = 1`: every element of the block takes its reset value, V_RESET_ABORT is marked where a command
runs or a transaction is open (R177), and the ghosts, the peer and the environment stay (R203; log 12). The
synchroniser's contents are unspecified: they are left alone (log 14). -/
def resetEdge (s : State) : State :=
  { s.markIf (s.busy || !s.stbQ) .resetAbort with
    stbQ := true, clkQ := true, dioQ := true
    stbOe := false, clkOe := false, dioOe := false
    keybuf := #v[0x00, 0x00, 0x00, 0x00]
    acc := 0x00, illegal := false, busy := false
    curOp := 0, argQ := 0x00, idx := 0, dly := 0 }

end Sys2Proof.Machine
end

