-- ==== Sys2Proof/Machine/Operands.lean ====
section
/-! DEFINITION. Operands: the brightness encoder (43_display_commands.md R156), the byte that eight serial bits make (41_send_byte.md R129, R130), and the composite sequences of micro-operations the traces are built from (00_scope.md R21). -/

namespace Sys2Proof.Machine

/-- `enc_bright(v)` (R156): display-off for 0, else the set-brightness base OR the level clamped to 7. -/
def encBright (v : Byte) : Byte :=
  if v = 0 then Ser.displayOff
  else Ser.brightnessBase ||| (if v ≤ Config.maxBright then v else Config.maxBright)

/-- `sum bits[i] << i` (R130): the first bit is the least significant one (R61). -/
def byteOfBits : List Bool → Byte
  | [] => 0
  | b :: bs => (BitVec.ofBool b).setWidth 8 ||| (byteOfBits bs <<< 1)

/-- The bits of a byte in serial order, least significant first (R61). -/
def bitsOfByte (v : Byte) : List Bool :=
  [v.getLsbD 0, v.getLsbD 1, v.getLsbD 2, v.getLsbD 3, v.getLsbD 4, v.getLsbD 5, v.getLsbD 6, v.getLsbD 7]

/-- All three pins. -/
def PinSet.all : PinSet := ⟨true, true, true⟩

/-- DIO alone. -/
def PinSet.dioOnly : PinSet := ⟨false, false, true⟩

/-- `OPEN_SEQ`. -/
def openSeq : List MicroOp := [.setPin .stb false, .wait]

/-- `CLOSE_SEQ`. -/
def closeSeq : List MicroOp := [.setPin .stb true, .wait]

/-- `BIT_OUT(b)`. -/
def bitOut (b : Bool) : List MicroOp :=
  [.setPin .clk false, .wait, .setPin .dio b, .wait, .setPin .clk true, .wait]

/-- `BYTE_SEQ(v)`: the bit cells of `v[0]` to `v[7]`. -/
def byteSeq (v : Byte) : List MicroOp := (bitsOfByte v).flatMap bitOut

/-- `BIT_IN(j)`. -/
def bitIn (j : Fin 8) : List MicroOp :=
  [.setPin .clk false, .wait, .sample j, .wait, .setPin .clk true, .wait]

/-- `SCAN_BYTE(k)`. -/
def scanByte (k : Fin 4) : List MicroOp :=
  ([0, 1, 2, 3, 4, 5, 6, 7] : List (Fin 8)).flatMap bitIn ++ [.store k]

/-- `n` bytes of one value in a row. -/
def byteRun (v : Byte) : Nat → List MicroOp
  | 0 => []
  | n + 1 => byteSeq v ++ byteRun v n

end Sys2Proof.Machine
end

