-- ==== Sys2Proof/Machine/Display.lean ====
section
/-! DEFINITION. SET_BRIGHTNESS and CLEAR_DISPLAY (43_display_commands.md): their traces, and what taking their words does. -/

namespace Sys2Proof.Machine

/-- `expand(SET_BRIGHTNESS, v)` (R155). -/
def traceSetBrightness (v : Byte) : List MicroOp := openSeq ++ byteSeq (encBright v) ++ closeSeq

/-- `expand(CLEAR_DISPLAY, 0)` (R159): the mode transaction, then set-address 0 and a zero byte for each cell. -/
def traceClearDisplay : List MicroOp :=
  openSeq ++ byteSeq Ser.addrAutoInc ++ closeSeq
    ++ openSeq ++ byteSeq Ser.addressBase ++ byteRun 0x00 Config.displayCells ++ closeSeq

/-- SET_BRIGHTNESS v (R155): accepted as R48 says; the sequencer then performs `traceSetBrightness v`. -/
def execSetBrightness (v : Byte) (s : State) : Host.Outcome State Fault Refusal := takeCommand .setBrightness v s

/-- CLEAR_DISPLAY (R159): accepted as R48 says; the sequencer then performs `traceClearDisplay`. -/
def execClearDisplay (s : State) : Host.Outcome State Fault Refusal := takeCommand .clearDisplay 0x00 s

end Sys2Proof.Machine
end

