-- ==== Sys2Proof/Machine/Illegal.lean ====
section
/-! DEFINITION. The illegal classes of 30_encoding.md R87: each is IllegalCommand (60_exceptions.md R170). -/

namespace Sys2Proof.Machine

/-- A word with the reserved operation 0b111 (R87 b): rejected. -/
def execReservedOp7 (arg : Byte) (s : State) : Host.Outcome State Fault Refusal :=
  takeIllegal (hostWord 0 0b111 arg) s

/-- A word with a bit of `rsv` set (R87 a): rejected. -/
def execRsvNonZero (rsv : BitVec 5) (op : BitVec 3) (arg : Byte) (s : State) : Host.Outcome State Fault Refusal :=
  takeIllegal (hostWord rsv op arg) s

/-- A word the decoder rejects, class (c) of R87 for a host word: rejected by the block in the same way. -/
def rejectWord (w : Word) (s : State) : Host.Outcome State Fault Refusal := takeIllegal w s

end Sys2Proof.Machine
end

