-- ==== Sys2Proof/Machine/Peer.lean ====
section
/-! DEFINITION. The peer chip as the spec gives it: what it takes from the wires (41_send_byte.md R129), its display memory and address pointer (20_memory.md R69), and the shared operations its commands use (60_exceptions.md R187). No rule of the block reads any of it. -/

namespace Sys2Proof.Machine

/-- The addressing mode, before any mode command the parameter PEER_POWERUP_MODE (R69; log 7). -/
def PeerRegs.addrMode (r : PeerRegs) : AddrMode :=
  match r.mode with
  | .powerup => Config.peerPowerupMode
  | .set m => m

/-- The cell the pointer stands at; none: past the last cell, where a byte is written nowhere (R69; log 8). -/
def PeerRegs.pointer (r : PeerRegs) : Option (BitVec 4) :=
  match r.ptr with
  | .powerup => some Config.peerPowerupPtr
  | .cell a => some a
  | .pastEnd => Config.peerAddrWrap

/-- The byte shown by a display cell: the one known to stand there, else a free value (U9; logs 7 and 9). -/
def PeerRegs.cell (r : PeerRegs) (a : BitVec 4) : Byte :=
  (r.cells.read a.toNat).getD (Config.freeCell r.epoch a)

/-- The brightness level (R187; log 7). -/
def PeerRegs.brightnessLevel (r : PeerRegs) : BitVec 3 :=
  match r.brightness with
  | .powerup => Config.peerPowerupBrightness
  | .level b => b

/-- Whether the display is on (R187, U11; log 10). -/
def PeerRegs.displayOn (r : PeerRegs) : Bool :=
  match r.power with
  | .off => false
  | .unstated n => Config.freeDisplayOn n

/-- The pointer after a data byte at cell `a`: fixed mode keeps it, auto-increment moves it on by 1, past 0x0F to
where the parameter says (R69; log 8). -/
def nextPointer (m : AddrMode) (a : BitVec 4) (p : PeerPtr) : PeerPtr :=
  match m with
  | .fixed => p
  | .autoInc => if a.toNat = Config.maxAddr then .pastEnd else .cell (a + 1)

/-- Whether a data byte, `n` having come before it in the transaction, is written as R69 says: the second and later
ones in fixed-address mode are not (U10; log 9). -/
def dataByteStated (m : AddrMode) (n : Nat) : Bool :=
  match m with
  | .autoInc => true
  | .fixed => n == 0

/-- The peer takes data byte `v` after `n` others (R69). Where what is written is not stated (U10) every cell becomes
any value. -/
def dataByte (n : Nat) (v : Byte) (r : PeerRegs) : PeerRegs :=
  if dataByteStated r.addrMode n then
    match r.pointer with
    | some a =>
      { r with
        cells := r.cells.write a.toNat v
        ptr := nextPointer r.addrMode a r.ptr
        phase := .addressed (n + 1) }
    | none => { r with phase := .addressed (n + 1) }
  else { r with cells := [], epoch := r.free, free := r.free + 1, phase := .addressed (n + 1) }

/-- The peer has received a whole byte `v`: the first of a transaction is a command byte, which stands in `serialIn`
until it is executed (R92; log 20); those after a set-address byte are data; any other has no meaning in the spec and
leaves the peer undefined (U7; log 11). -/
def takeByte (v : Byte) (r : PeerRegs) (s : State) : State :=
  match r.phase with
  | .selected => { s with peer := .known r, serialIn := some v }
  | .addressed n => { s with peer := .known (dataByte n v r) }
  | .idle => { s with peer := .undefined }
  | .commanded => { s with peer := .undefined }
  | .keyScan => { s with peer := .undefined }

/-- The peer takes one bit; every 8 bits make one byte, least significant bit first (R129). -/
def takeBit (b : Bool) (r : PeerRegs) (s : State) : State :=
  if (r.bits ++ [b]).length = 8 then takeByte (byteOfBits (r.bits ++ [b])) { r with bits := [] } s
  else { s with peer := .known { r with bits := r.bits ++ [b] } }

/-- Strobe has fallen on the wire between two states (log 13). -/
def strobeFell (before after : State) : Bool :=
  before.wire .stb != .low && after.wire .stb == .low

/-- Strobe has risen on the wire. -/
def strobeRose (before after : State) : Bool :=
  before.wire .stb == .low && after.wire .stb == .high

/-- The serial clock has risen on the wire. -/
def clockRose (before after : State) : Bool :=
  before.wire .clk == .low && after.wire .clk == .high

/-- What the peer does at the wire change from `before` to `after` (R129): a falling strobe begins a transaction, a
rising one ends it, and at a rising clock edge with strobe low and DIO driven by the block it takes the DIO level. -/
def watch (before after : State) : State :=
  match after.peer with
  | .undefined => after
  | .known r =>
    if strobeFell before after then { after with peer := .known { r with phase := .selected, bits := [] } }
    else if strobeRose before after then { after with peer := .known { r with phase := .idle, bits := [] } }
    else if clockRose before after && after.wire .stb == .low && after.dioOe then takeBit after.dioQ r after
    else after

/-- A change of the peer's registers; an undefined peer stays so (R191). -/
def State.onPeer (f : PeerRegs → PeerRegs) (s : State) : State :=
  match s.peer with
  | .known r => { s with peer := .known (f r) }
  | .undefined => s

end Sys2Proof.Machine
end

