-- ==== Sys2Proof/Machine/PeerCommands.lean ====
section
/-! DEFINITION. The serial command bytes (30_encoding.md R93), executed by the peer as 60_exceptions.md R187 and 20_memory.md R69 say. Each changes only what is said of it (log 24); an undefined peer stays undefined (R191). -/

namespace Sys2Proof.Machine

/-- 0x40 selects address-auto-increment mode. -/
def execSerAddrAutoInc (s : State) : Host.Outcome State Fault Refusal :=
  .next (s.onPeer fun r => { r with mode := .set .autoInc, phase := .commanded })

/-- 0x44 selects fixed-address mode. -/
def execSerFixedAddr (s : State) : Host.Outcome State Fault Refusal :=
  .next (s.onPeer fun r => { r with mode := .set .fixed, phase := .commanded })

/-- 0x42 begins a read of the key-scan matrix. -/
def execSerReadKeyScan (s : State) : Host.Outcome State Fault Refusal :=
  .next (s.onPeer fun r => { r with phase := .keyScan })

/-- 0x80 turns the display off. -/
def execSerDisplayOff (s : State) : Host.Outcome State Fault Refusal :=
  .next (s.onPeer fun r => { r with power := .off, phase := .commanded })

/-- `0x88 | b` sets brightness b. Whether the display is on afterwards is in no source: a free value (U11; log 10). -/
def execSerSetBrightness (b : BitVec 3) (s : State) : Host.Outcome State Fault Refusal :=
  .next (s.onPeer fun r =>
    { r with brightness := .level b, power := .unstated r.free, free := r.free + 1, phase := .commanded })

/-- `0xC0 | a` sets the display-memory address a; the bytes that follow are data (R69). -/
def execSerSetAddress (a : BitVec 4) (s : State) : Host.Outcome State Fault Refusal :=
  .next (s.onPeer fun r => { r with ptr := .cell a, phase := .addressed 0 })

end Sys2Proof.Machine
end

