-- ==== Sys2Proof/Machine/PinControl.lean ====
section
/-! DEFINITION. CONFIGURE, OPEN and CLOSE (40_pin_control.md): their traces, and what taking their words does. -/

namespace Sys2Proof.Machine

/-- `expand(CONFIGURE, 0)` (R110). -/
def traceConfigure : List MicroOp := [.setDir PinSet.all true]

/-- `expand(OPEN, 0)` (R114). -/
def traceOpen : List MicroOp := openSeq

/-- `expand(CLOSE, 0)` (R116). -/
def traceClose : List MicroOp := closeSeq

/-- CONFIGURE (R110): accepted as R48 says; the sequencer then performs `traceConfigure`. -/
def execConfigure (s : State) : Host.Outcome State Fault Refusal := takeCommand .configure 0x00 s

/-- OPEN (R114): accepted as R48 says; the sequencer then performs `traceOpen`. -/
def execOpen (s : State) : Host.Outcome State Fault Refusal := takeCommand .openTxn 0x00 s

/-- CLOSE (R116): accepted as R48 says; the sequencer then performs `traceClose`. -/
def execClose (s : State) : Host.Outcome State Fault Refusal := takeCommand .closeTxn 0x00 s

end Sys2Proof.Machine
end

