-- ==== Sys2Proof/Machine/Transfer.lean ====
section
/-! DEFINITION. SEND_BYTE (41_send_byte.md) and READ_KEYBOARD (42_read_keyboard.md): their traces, and what taking their words does. -/

namespace Sys2Proof.Machine

/-- `expand(SEND_BYTE, v)` (R125). -/
def traceSendByte (v : Byte) : List MicroOp := byteSeq v

/-- `expand(READ_KEYBOARD, 0)` (R140). -/
def traceReadKeyboard : List MicroOp :=
  openSeq ++ byteSeq Ser.readKeyScan ++ [.setDir PinSet.dioOnly false, .wait]
    ++ scanByte 0 ++ scanByte 1 ++ scanByte 2 ++ scanByte 3
    ++ [.setDir PinSet.dioOnly true] ++ closeSeq

/-- SEND_BYTE v (R125): accepted as R48 says; the sequencer then performs `traceSendByte v`. -/
def execSendByte (v : Byte) (s : State) : Host.Outcome State Fault Refusal := takeCommand .sendByte v s

/-- READ_KEYBOARD (R140): accepted as R48 says; the sequencer then performs `traceReadKeyboard`. -/
def execReadKeyboard (s : State) : Host.Outcome State Fault Refusal := takeCommand .readKeyboard 0x00 s

end Sys2Proof.Machine
end

