-- ==== Sys2Proof/Machine/Dispatch.lean ====
section
/-! DEFINITION. The meaning of each instruction. -/

namespace Sys2Proof.Machine

def exec (i : Instr) (s : State) : Host.Outcome State Fault Refusal :=
  match i with
  -- host operations (30_encoding.md R84)
  | .configure => Sys2Proof.Machine.execConfigure s
  | .openTxn => Sys2Proof.Machine.execOpen s
  | .closeTxn => Sys2Proof.Machine.execClose s
  | .sendByte v => Sys2Proof.Machine.execSendByte v s
  | .readKeyboard => Sys2Proof.Machine.execReadKeyboard s
  | .setBrightness v => Sys2Proof.Machine.execSetBrightness v s
  | .clearDisplay => Sys2Proof.Machine.execClearDisplay s
  -- illegal classes (R87)
  | .reservedOp7 arg => Sys2Proof.Machine.execReservedOp7 arg s
  | .rsvNonZero rsv op arg => Sys2Proof.Machine.execRsvNonZero rsv op arg s
  -- serial command bytes (R93)
  | .serAddrAutoInc => Sys2Proof.Machine.execSerAddrAutoInc s
  | .serFixedAddr => Sys2Proof.Machine.execSerFixedAddr s
  | .serReadKeyScan => Sys2Proof.Machine.execSerReadKeyScan s
  | .serDisplayOff => Sys2Proof.Machine.execSerDisplayOff s
  | .serSetBrightness b => Sys2Proof.Machine.execSerSetBrightness b s
  | .serSetAddress a => Sys2Proof.Machine.execSerSetAddress a s

end Sys2Proof.Machine
end

