-- ==== Sys2Proof/Machine/Sequencer.lean ====
section
/-! DEFINITION. The sequencer (10_state.md section 4): the trace of an operation (R51), the micro-operation at `idx`, and performing it (R49, R50). -/

namespace Sys2Proof.Machine

/-- The trace of an operation (R51). -/
def traceOf (op : Op) (arg : Byte) : List MicroOp :=
  match op with
  | .configure => traceConfigure
  | .openTxn => traceOpen
  | .closeTxn => traceClose
  | .sendByte => traceSendByte arg
  | .readKeyboard => traceReadKeyboard
  | .setBrightness => traceSetBrightness arg
  | .clearDisplay => traceClearDisplay

/-- `expand(op, arg)` of a 3-bit code (R51); the reserved code has no trace. -/
def expand (code : BitVec 3) (arg : Byte) : List MicroOp :=
  match Op.ofCode code with
  | some op => traceOf op arg
  | none => []

/-- `T = expand(cur_op, arg_q)` (R44). -/
def State.trace (s : State) : List MicroOp := expand s.curOp s.argQ

/-- `T[idx]` (R44, R49). -/
def State.currentMicro (s : State) : Option MicroOp := s.trace[s.idx.toNat]?

/-- A micro-operation's effect on the block, and the peer's on the wires it changes. -/
def perform (m : MicroOp) (s : State) : State := watch s (performBlock m s)

/-- A micro-operation has completed: `idx <- idx + 1`, and `busy <- 0` in the same edge where it was the last of T
(R49, R50). -/
def advance (s : State) : State :=
  { s with idx := s.idx + 1, busy := s.idx.toNat + 1 != s.trace.length }

/-- One step of a busy block (R49, R50). -/
def sequencerStep (s : State) : Host.Outcome State Fault Refusal :=
  match s.currentMicro with
  | some m => .next (advance (perform m s))
  | none => .fault .sequencerLost

end Sys2Proof.Machine
end

