-- ==== Sys2Proof/Machine/Fetch.lean ====
section
/-! DEFINITION. What a step does around `exec`: which agent moves (60_exceptions.md R179, R188), the host's word taken and decoded (10_state.md R48), the command byte the peer has received decoded and executed (41_send_byte.md R129), and how an instruction is placed where the next step takes it. -/

namespace Sys2Proof.Machine

/-- The peer executes the command byte it has received; a byte outside the list of R93 leaves it undefined (R96, N8;
log 11). With no byte waiting nothing happens. -/
def peerTurn (s : State) : Host.Outcome State Fault Refusal :=
  match s.serialIn with
  | none => .next s
  | some b =>
    match decodeSerial b with
    | .ok i => exec i { s with serialIn := none }
    | .error _ => .next { s with serialIn := none, peer := .undefined }

/-- An idle block at an edge with `rst_i = 0` (R48): it waits where no word is presented, else takes the word. -/
def hostTurn (s : State) : Host.Outcome State Fault Refusal :=
  match s.port with
  | [] => .next s
  | w :: ws =>
    match decodeWord w with
    | .ok i => exec i { s with port := ws }
    | .error _ => rejectWord w { s with port := ws }

/-- A busy block performs its micro-operation (R49), and the peer executes the command byte this may have completed. -/
def busyTurn (s : State) : Host.Outcome State Fault Refusal :=
  match sequencerStep s with
  | .next t => peerTurn t
  | .fault f => .fault f
  | .refused r => .refused r

/-- One step at `rst_i = 0`: a received command byte first (log 20), then the running command, then the host (R179). -/
def activeStep (s : State) : Host.Outcome State Fault Refusal :=
  if s.serialIn.isSome then peerTurn s
  else if s.busy then busyTurn s
  else hostTurn s

/-- One step: `rst_i = 1` wins over everything (R179, R200). -/
def stepOnce (s : State) : Host.Outcome State Fault Refusal :=
  if s.rstLevel then .next (resetEdge s.afterRstLevel) else activeStep s.afterRstLevel

/-- The state in which the next step takes a given instruction: a host word on the port of an idle block, a serial byte
at the peer; `rst_i` is 0 at that step (log 2). -/
def placeInstr (s : State) (nbits w : Nat) : State :=
  if nbits = 8 then
    { s with serialIn := some (BitVec.ofNat 8 w), rstPlan := false :: s.rstPlan.tail }
  else
    { s with
      serialIn := none, busy := false
      port := BitVec.ofNat 16 w :: s.port, rstPlan := false :: s.rstPlan.tail }

end Sys2Proof.Machine
end

