-- ==== Sys2Proof/Machine/Step.lean ====
section
/-! DEFINITION. The step, and the state in which the next step takes a given instruction. -/

namespace Sys2Proof.Machine

/-- One step of the machine (00_scope.md R3). -/
def step (s : State) : Host.Outcome State Fault Refusal := stepOnce s

/-- `s` with an instruction of `nbits` bits `w` where `step` takes its next one (log 2). -/
def State.withFetchWord (s : State) (nbits w : Nat) : State := placeInstr s nbits w

end Sys2Proof.Machine
end

