-- ==== Sys2Proof/Machine/Assembler.lean ====
section
/-! DEFINITION. The assembler syntax and the pseudo-instructions of 30_encoding.md R90 and R91: notation for host words, no part of the machine. -/

namespace Sys2Proof.Machine

/-- What the assembler refuses (R90, R91). -/
inductive AsmError where
  | unknownMnemonic
  | missingOperand
  | unexpectedOperand
  | badNumber
  | operandOutOfRange
  | runPastLastCell
deriving DecidableEq, Repr

/-- The pseudo-instructions (R91). -/
inductive Pseudo where
  | displayOff
  | sendCmd (c : Byte)
  | setModeAuto
  | setModeFixed
  | writeCell (a : BitVec 4) (v : Byte)
  | writeRun (a : BitVec 4) (v0 : Byte) (vs : List Byte)
deriving DecidableEq, Repr

/-- `OPEN; SEND_BYTE v0; ...; CLOSE`. -/
def asmTransaction (vs : List Byte) : List Instr := .openTxn :: vs.map .sendByte ++ [.closeTxn]

/-- The expansion of a pseudo-instruction (R91): a run past cell 0x0F is refused. -/
def expandPseudo : Pseudo → Except AsmError (List Instr)
  | .displayOff => .ok [.setBrightness 0]
  | .sendCmd c => .ok (asmTransaction [c])
  | .setModeAuto => .ok (asmTransaction [Ser.addrAutoInc])
  | .setModeFixed => .ok (asmTransaction [Ser.fixedAddr])
  | .writeCell a v => .ok (asmTransaction [Ser.fixedAddr] ++ asmTransaction [Ser.setAddress a, v])
  | .writeRun a v0 vs =>
    if a.toNat + vs.length ≤ Config.maxAddr then
      .ok (asmTransaction [Ser.addrAutoInc] ++ asmTransaction (Ser.setAddress a :: v0 :: vs))
    else .error .runPastLastCell

/-! ### Text (R90; log 22) -/

/-- A blank of the source line. -/
def isBlank (c : Char) : Bool := c == ' ' || c == '\t'

/-- Without the blanks at both ends. -/
def trimBlanks (cs : List Char) : List Char := ((cs.dropWhile isBlank).reverse.dropWhile isBlank).reverse

/-- The parts between commas. -/
def splitCommas : List Char → List (List Char)
  | [] => [[]]
  | c :: cs =>
    if c = ',' then [] :: splitCommas cs
    else
      match splitCommas cs with
      | [] => [[c]]
      | p :: ps => (c :: p) :: ps

/-- The value of a digit, up to base 16. -/
def digitValue (c : Char) : Option Nat :=
  if '0' ≤ c ∧ c ≤ '9' then some (c.toNat - '0'.toNat)
  else if 'a' ≤ c ∧ c ≤ 'f' then some (c.toNat - 'a'.toNat + 10)
  else if 'A' ≤ c ∧ c ≤ 'F' then some (c.toNat - 'A'.toNat + 10)
  else none

/-- Digits in a base, after the digits read so far. -/
def readDigits (base : Nat) : List Char → Nat → Option Nat
  | [], n => some n
  | c :: cs, n =>
    match digitValue c with
    | some d => if d < base then readDigits base cs (base * n + d) else none
    | none => none

/-- A number in decimal, hexadecimal (`0x`) or binary (`0b`). -/
def readNumber : List Char → Option Nat
  | '0' :: 'x' :: c :: cs => readDigits 16 (c :: cs) 0
  | '0' :: 'b' :: c :: cs => readDigits 2 (c :: cs) 0
  | c :: cs => readDigits 10 (c :: cs) 0
  | [] => none

/-- A number below a bound. -/
def readBelow (bound : Nat) (cs : List Char) : Except AsmError Nat :=
  match readNumber cs with
  | none => .error .badNumber
  | some n => if n < bound then .ok n else .error .operandOutOfRange

/-- An operand `imm8` (R90). -/
def readImm8 (cs : List Char) : Except AsmError Byte :=
  match readBelow 256 cs with
  | .ok n => .ok (BitVec.ofNat 8 n)
  | .error e => .error e

/-- A display address, 0..15 (R91). -/
def readAddress (cs : List Char) : Except AsmError (BitVec 4) :=
  match readBelow 16 cs with
  | .ok n => .ok (BitVec.ofNat 4 n)
  | .error e => .error e

/-- A list of `imm8` operands. -/
def readImms : List (List Char) → Except AsmError (List Byte)
  | [] => .ok []
  | o :: os =>
    match readImm8 o, readImms os with
    | .ok v, .ok vs => .ok (v :: vs)
    | .error e, _ => .error e
    | _, .error e => .error e

/-- A mnemonic without an operand. -/
def asmNone (is : List Instr) : List (List Char) → Except AsmError (List Instr)
  | [] => .ok is
  | _ :: _ => .error .unexpectedOperand

/-- A mnemonic with one `imm8` operand. -/
def asmImm8 (f : Byte → Except AsmError (List Instr)) : List (List Char) → Except AsmError (List Instr)
  | [] => .error .missingOperand
  | [o] =>
    match readImm8 o with
    | .ok v => f v
    | .error e => .error e
  | _ :: _ :: _ => .error .unexpectedOperand

/-- A mnemonic with a display address and one or more `imm8` operands. -/
def asmAddress (f : BitVec 4 → List Byte → Except AsmError (List Instr)) :
    List (List Char) → Except AsmError (List Instr)
  | [] => .error .missingOperand
  | o :: os =>
    match readAddress o, readImms os with
    | .ok a, .ok vs => f a vs
    | .error e, _ => .error e
    | _, .error e => .error e

/-- The operands of WRITE_CELL. -/
def asmWriteCell (a : BitVec 4) : List Byte → Except AsmError (List Instr)
  | [] => .error .missingOperand
  | [v] => expandPseudo (.writeCell a v)
  | _ :: _ :: _ => .error .unexpectedOperand

/-- The operands of WRITE_RUN. -/
def asmWriteRun (a : BitVec 4) : List Byte → Except AsmError (List Instr)
  | [] => .error .missingOperand
  | v0 :: vs => expandPseudo (.writeRun a v0 vs)

/-- One instruction or pseudo-instruction: its mnemonic in upper case, and its operands (R84, R90, R91). -/
def asmInstr (m : List Char) (os : List (List Char)) : Except AsmError (List Instr) :=
  if m = "CONFIGURE".toList then asmNone [.configure] os
  else if m = "OPEN".toList then asmNone [.openTxn] os
  else if m = "CLOSE".toList then asmNone [.closeTxn] os
  else if m = "SEND_BYTE".toList then asmImm8 (fun v => .ok [.sendByte v]) os
  else if m = "READ_KEYBOARD".toList then asmNone [.readKeyboard] os
  else if m = "SET_BRIGHTNESS".toList then asmImm8 (fun v => .ok [.setBrightness v]) os
  else if m = "CLEAR_DISPLAY".toList then asmNone [.clearDisplay] os
  else if m = "DISPLAY_OFF".toList then asmNone [.setBrightness 0] os
  else if m = "SEND_CMD".toList then asmImm8 (fun c => expandPseudo (.sendCmd c)) os
  else if m = "SET_MODE_AUTO".toList then asmNone (asmTransaction [Ser.addrAutoInc]) os
  else if m = "SET_MODE_FIXED".toList then asmNone (asmTransaction [Ser.fixedAddr]) os
  else if m = "WRITE_CELL".toList then asmAddress asmWriteCell os
  else if m = "WRITE_RUN".toList then asmAddress asmWriteRun os
  else .error .unknownMnemonic

/-- One line (R90): a comment runs from `;` to the end, mnemonics are case-insensitive; an empty line is nothing. -/
def assembleLine (line : List Char) : Except AsmError (List Instr) :=
  let text := trimBlanks (line.takeWhile (· != ';'))
  let m := text.takeWhile (fun c => !isBlank c)
  let rest := trimBlanks (text.dropWhile (fun c => !isBlank c))
  if m.isEmpty then .ok []
  else asmInstr (m.map Char.toUpper) (if rest.isEmpty then [] else (splitCommas rest).map trimBlanks)

/-- The host words of a list of instructions; a serial command byte is no host word. -/
def hostWords : List Instr → List Word
  | [] => []
  | i :: is =>
    match encode i with
    | .host16 w => w :: hostWords is
    | .serial8 _ => hostWords is

/-- The host words of a program's lines. -/
def assemble : List (List Char) → Except AsmError (List Word)
  | [] => .ok []
  | l :: ls =>
    match assembleLine l, assemble ls with
    | .ok is, .ok ws => .ok (hostWords is ++ ws)
    | .error e, _ => .error e
    | _, .error e => .error e

end Sys2Proof.Machine
end

