-- ==== Sys2Proof/Machine/Cycle.lean ====
section
/-! DEFINITION. The clock-edge layer: one rising edge of `sysclk_i` (10_state.md R31), with the delay counter (R45), the DIO synchroniser (R33) and the open parameters F_CLK and DELAY_CYCLES (00_scope.md R9). `step` is the same machine without time (R3). -/

namespace Sys2Proof.Machine

/-- `F_CLK` in hertz, any positive number (R9; log 15). -/
def fClk : Nat := Config.fClkLessOne + 1

/-- `n` cycles last at least `T_D_MIN`: `n / F_CLK >= T_D_MIN` (R9). -/
def coversDelay (n : Nat) : Bool := decide (Config.tDMinMicroseconds * fClk ≤ n * 1000000)

theorem coversDelay_some : ∃ n, coversDelay n = true :=
  ⟨Config.tDMinMicroseconds * fClk, decide_eq_true (Nat.le_mul_of_pos_right _ (by decide))⟩

/-- The least number of cycles that last `T_D_MIN`: `ceil(T_D_MIN x F_CLK)` (70_reset_and_hazards.md R207). -/
def leastDelayCycles : Nat := Nat.find coversDelay_some

/-- `DELAY_CYCLES`: that least number or any larger one (R8, R207; log 15). -/
def delayCycles : Nat := leastDelayCycles + Config.delayExtra

/-- The width of `dly` in bits: `ceil(log2(DELAY_CYCLES + 1))` (R45). -/
def dlyWidth : Nat := Nat.clog 2 (delayCycles + 1)

/-- The level at the DIO pad in the coming cycle: the block's where it drives the pin, else the peer's draw (R36). -/
def State.padLevel (s : State) : Bool := if s.dioOe then s.dioQ else s.drawLevel

/-- The synchroniser's two flip-flops at an edge (R33); one draw an edge (log 23). -/
def shiftSync (s : State) : State := { s.afterDraw with sync := ⟨s.padLevel, s.sync.first⟩ }

/-- Where the micro-operation now at `idx` is a `Wait`, it begins: `dly` is loaded (R45). -/
def loadDelay (s : State) : State :=
  if s.busy && s.currentMicro == some .wait then { s with dly := delayCycles - 1 } else s

/-- An edge of a busy block, `dioIn` being `dio_in` before it (R49): a `Wait` completes where `dly` reads 0 and counts
down before that (R45); any other micro-operation completes at once. -/
def busyEdge (dioIn : Bool) (s : State) : Host.Outcome State Fault Refusal :=
  match s.currentMicro with
  | none => .fault .sequencerLost
  | some m =>
    if m.isWait && s.dly != 0 then .next { s with dly := s.dly - 1 }
    else peerTurn (loadDelay (advance (watch s (applyMicro dioIn m s))))

/-- One rising edge of `sysclk_i` (R31, R179). -/
def clockEdge (s : State) : Host.Outcome State Fault Refusal :=
  if s.rstLevel then .next (resetEdge (shiftSync s.afterRstLevel))
  else if s.serialIn.isSome then peerTurn (shiftSync s.afterRstLevel)
  else if s.busy then busyEdge s.sync.second (shiftSync s.afterRstLevel)
  else hostTurn (shiftSync s.afterRstLevel)

/-- `n` rising edges. -/
def clockRun : Nat → State → Host.Outcome State Fault Refusal
  | 0, s => .next s
  | n + 1, s =>
    match clockEdge s with
    | .next t => clockRun n t
    | .fault f => .fault f
    | .refused r => .refused r

/-- How many cycles a micro-operation lasts (R45, R49). -/
def microCycles (m : MicroOp) : Nat := if m.isWait then delayCycles else 1

/-- How many cycles `busy` stays 1 for a trace: `N_op + N_wait x DELAY_CYCLES` (R215). -/
def busyCycles (T : List MicroOp) : Nat :=
  T.countP (fun m => !m.isWait) + T.countP MicroOp.isWait * delayCycles

end Sys2Proof.Machine
end

