-- ==== Sys2Proof/Machine/Flags.lean ====
section
/-! DEFINITION. What the host sees: the status vector (10_state.md R46), `cmd_ready_o` (R47), `keybuf_o` (20_memory.md R62), and the end of a run (70_reset_and_hazards.md R216). The block has no arithmetic flags (R56). -/

namespace Sys2Proof.Machine

/-- `status_o[7:0]` (R46): DIO, CLK, STB, DIO_OE, CLK_OE, STB_OE, ILLEGAL, BUSY from bit 7 down. -/
def State.statusO (s : State) : BitVec 8 :=
  BitVec.ofBool s.dioQ ++ BitVec.ofBool s.clkQ ++ BitVec.ofBool s.stbQ ++ BitVec.ofBool s.dioOe
    ++ BitVec.ofBool s.clkOe ++ BitVec.ofBool s.stbOe ++ BitVec.ofBool s.illegal ++ BitVec.ofBool s.busy

/-- `cmd_ready_o` (R47). -/
def State.cmdReadyO (s : State) : Bool := !s.busy && !s.rstLevel

/-- `cmd_valid_i`: the host presents a word (R32; log 2). -/
def State.cmdValidI (s : State) : Bool := !s.port.isEmpty

/-- `keybuf_o` (R62): KEYBUF[3] is the most significant byte. -/
def State.keybufO (s : State) : BitVec 32 :=
  s.keybuf[3] ++ s.keybuf[2] ++ s.keybuf[1] ++ s.keybuf[0]

/-- A run has ended: every word taken and the block idle (R216). -/
def State.ended (s : State) : Bool := s.port.isEmpty && !s.busy

/-- A run has ended clean: no violation and no transaction left open (R216). -/
def State.endedClean (s : State) : Bool := s.ended && s.viol == ViolSet.empty && s.stbQ

end Sys2Proof.Machine
end

