-- ==== Sys2Proof/Machine/Frames.lean ====
section
/-! DEFINITION. The frames the peer receives, as a function of a start state and the events since (41_send_byte.md R130). It has a meaning only while no violation is marked (60_exceptions.md R191). -/

namespace Sys2Proof.Machine

/-- The variables of R130. -/
structure FrameState where
  stb : Bool
  clk : Bool
  dio : Bool
  dioOe : Bool
  cur : List Byte
  bits : List Bool
  out : List (List Byte)
deriving DecidableEq, Repr

/-- The variables at the start of a run at `s0`. -/
def frameStart (s0 : State) : FrameState where
  stb := s0.stbQ
  clk := s0.clkQ
  dio := s0.dioQ
  dioOe := s0.dioOe
  cur := []
  bits := []
  out := []

/-- One more data bit; the eighth completes a byte. -/
def frameBit (f : FrameState) : FrameState :=
  if (f.bits ++ [f.dio]).length = 8 then { f with cur := f.cur ++ [byteOfBits (f.bits ++ [f.dio])], bits := [] }
  else { f with bits := f.bits ++ [f.dio] }

/-- What R130 does at one event. -/
def frameEvent (f : FrameState) (e : Event) : FrameState :=
  match e with
  | .pin .stb false => { f with stb := false, cur := if f.stb then [] else f.cur, bits := if f.stb then [] else f.bits }
  | .pin .stb true => { f with stb := true, out := if f.stb then f.out else f.out ++ [f.cur] }
  | .pin .clk x =>
    if !f.clk && x && !f.stb && f.dioOe then { frameBit f with clk := x } else { f with clk := x }
  | .pin .dio x => { f with dio := x }
  | .dir S d => if S.dio then { f with dioOe := d } else f
  | .delay => f
  | .sample _ _ => f
  | .store _ _ => f
  | .rejected _ => f

/-- `frames(s0, ev)` (R130): one list of bytes for each transaction closed in `ev`, in order. -/
def frames (s0 : State) (ev : List Event) : List (List Byte) := (ev.foldl frameEvent (frameStart s0)).out

end Sys2Proof.Machine
end

