-- ==== Sys2Proof/Safety.lean ====
section
/-! DEFINITION. What claims are stated with: runs of steps, quiet and configured states, the framing discipline of 70_reset_and_hazards.md R209, and the invariants of the machine. -/

namespace Sys2Proof.Machine

/-- `n` steps, stopping at the first fault or refusal. -/
def run : Nat → State → Host.Outcome State Fault Refusal
  | 0, s => .next s
  | n + 1, s =>
    match step s with
    | .next t => run n t
    | .fault f => .fault f
    | .refused r => .refused r

/-- No reset is coming and no command byte waits at the peer. -/
abbrev State.Quiet (s : State) : Prop := s.rstPlan = [] ∧ s.serialIn = none

/-- The block is idle, so that it takes the next word, and the state is quiet. -/
abbrev State.IdleQuiet (s : State) : Prop := s.busy = false ∧ s.Quiet

/-- The block drives all three pins: CONFIGURE has been performed (40_pin_control.md R113). -/
abbrev State.Configured (s : State) : Prop := s.stbOe = true ∧ s.clkOe = true ∧ s.dioOe = true

/-- "Configured idle" outside a transaction, in no particular data: no violation marked, strobe and clock high. -/
abbrev State.ConfiguredIdle (s : State) : Prop :=
  s.IdleQuiet ∧ s.Configured ∧ s.stbQ = true ∧ s.clkQ = true ∧ s.viol = ViolSet.empty

/-- A configured idle block with a transaction open (10_state.md R52). -/
abbrev State.InTransaction (s : State) : Prop :=
  s.IdleQuiet ∧ s.Configured ∧ s.stbQ = false ∧ s.clkQ = true ∧ s.viol = ViolSet.empty

/-- The state but for the peer, whose registers no rule of the block reads (41_send_byte.md R129). -/
def State.withoutPeer (s : State) : State := { s with peer := .undefined, serialIn := none }

/-- The DIO level the draw after `n` further ones will give (60_exceptions.md R190). -/
def State.nthDraw (s : State) (n : Nat) : Bool := s.dioPlan[n]?.getD (Config.dioDraw (s.draws + n))

/-- The byte that eight draws in a row make, the first one its least significant bit (42_read_keyboard.md R143). -/
def State.drawnByte (s : State) (n : Nat) : Byte :=
  byteOfBits [s.nthDraw n, s.nthDraw (n + 1), s.nthDraw (n + 2), s.nthDraw (n + 3), s.nthDraw (n + 4),
    s.nthDraw (n + 5), s.nthDraw (n + 6), s.nthDraw (n + 7)]

/-- The events of one bit cell (R125). -/
def bitEvents (b : Bool) : List Event :=
  [.pin .clk false, .delay, .pin .dio b, .delay, .pin .clk true, .delay]

/-- The events of one byte sent, least significant bit first (R125). -/
def byteEvents (v : Byte) : List Event := (bitsOfByte v).flatMap bitEvents

/-- The events of one key-scan bit cell, `b` being the level sampled (00_scope.md R19, R21). -/
def scanBitEvents (j : Fin 8) (b : Bool) : List Event :=
  [.pin .clk false, .delay, .sample j b, .delay, .pin .clk true, .delay]

/-- The events of one key-scan byte whose first level is the draw after `n` further ones (42_read_keyboard.md R140). -/
def scanByteEvents (k : Fin 4) (n : Nat) (s : State) : List Event :=
  scanBitEvents 0 (s.nthDraw n) ++ scanBitEvents 1 (s.nthDraw (n + 1)) ++ scanBitEvents 2 (s.nthDraw (n + 2))
    ++ scanBitEvents 3 (s.nthDraw (n + 3)) ++ scanBitEvents 4 (s.nthDraw (n + 4)) ++ scanBitEvents 5 (s.nthDraw (n + 5))
    ++ scanBitEvents 6 (s.nthDraw (n + 6)) ++ scanBitEvents 7 (s.nthDraw (n + 7)) ++ [.store k (s.drawnByte n)]

/-- Equal but for the delay counter, the synchroniser and the DIO draws, which the step without time does not move in
the way a clock edge does (logs 14 and 23). -/
def State.withoutClock (s : State) : State :=
  { s with dly := 0, sync := ⟨false, false⟩, dioPlan := [], draws := 0 }

/-! ### Framing discipline (R209, R214) -/

/-- Whether an accepted operation keeps the discipline, given whether the pins are driven and a transaction is open. -/
def opFramed (configured inTxn : Bool) (op : Op) : Bool :=
  match op with
  | .configure => true
  | .openTxn => configured && !inTxn
  | .closeTxn => configured && inTxn
  | .sendByte => configured && inTxn
  | .readKeyboard => configured && !inTxn
  | .setBrightness => configured && !inTxn
  | .clearDisplay => configured && !inTxn

/-- Whether a transaction is open after an operation. -/
def txnAfter (inTxn : Bool) (op : Op) : Bool :=
  match op with
  | .configure => inTxn
  | .openTxn => true
  | .closeTxn => false
  | .sendByte => inTxn
  | .readKeyboard => false
  | .setBrightness => false
  | .clearDisplay => false

/-- The framing discipline over the host's words (R209, R214): CONFIGURE before anything else, OPEN and the whole-transaction
operations only outside a transaction, SEND_BYTE and CLOSE only inside. An illegal word is rejected and changes nothing. -/
def framed (configured inTxn : Bool) : List Word → Bool
  | [] => true
  | w :: ws =>
    if legal w then
      match Op.ofCode w.op with
      | some op => opFramed configured inTxn op && framed (configured || op == .configure) (txnAfter inTxn op) ws
      | none => false
    else framed configured inTxn ws

/-! ### Invariants -/

/-- What a micro-operation leaves in `stb_q`. -/
def stbAfterMicro (q : Bool) (m : MicroOp) : Bool :=
  match m with
  | .setPin .stb v => v
  | .setPin .clk _ => q
  | .setPin .dio _ => q
  | .setDir _ _ => q
  | .wait => q
  | .sample _ => q
  | .store _ => q

/-- What a micro-operation leaves in `clk_q`. -/
def clkAfterMicro (q : Bool) (m : MicroOp) : Bool :=
  match m with
  | .setPin .clk v => v
  | .setPin .stb _ => q
  | .setPin .dio _ => q
  | .setDir _ _ => q
  | .wait => q
  | .sample _ => q
  | .store _ => q

/-- What a micro-operation leaves in the direction latches of strobe, clock and data. -/
def oeAfterMicro (q : PinSet) (m : MicroOp) : PinSet :=
  match m with
  | .setDir S d => ⟨if S.stb then d else q.stb, if S.clk then d else q.clk, if S.dio then d else q.dio⟩
  | .setPin _ _ => q
  | .wait => q
  | .sample _ => q
  | .store _ => q

/-- Whether the accumulator is known to be 0x00 after a micro-operation. -/
def accClearAfterMicro (c : Bool) (m : MicroOp) : Bool :=
  match m with
  | .store _ => true
  | .sample _ => false
  | .setPin _ _ => c
  | .setDir _ _ => c
  | .wait => c

/-- The direction latches as a set. -/
def State.oes (s : State) : PinSet := ⟨s.stbOe, s.clkOe, s.dioOe⟩

/-- The micro-operations still to be performed. -/
def State.rest (s : State) : List MicroOp := if s.busy then s.trace.drop s.idx.toNat else []

/-- `stb_q` when the running command has ended. -/
def State.finalStb (s : State) : Bool := s.rest.foldl stbAfterMicro s.stbQ

/-- `clk_q` when the running command has ended. -/
def State.finalClk (s : State) : Bool := s.rest.foldl clkAfterMicro s.clkQ

/-- The direction latches when the running command has ended. -/
def State.finalOes (s : State) : PinSet := s.rest.foldl oeAfterMicro s.oes

/-- The sequencer holds an operation and stands inside its trace while busy (10_state.md R44). -/
abbrev SequencerInv (s : State) : Prop := s.busy = true → s.idx.toNat < s.trace.length

/-- The delay counter is inside its width (10_state.md R45). -/
abbrev DlyInv (s : State) : Prop := s.dly < 2 ^ dlyWidth

/-- The pins come to rest: when the running command has ended, the clock is high (R54), and either all three pins are
driven or, before the first CONFIGURE, strobe and clock are not (R53, R113). -/
abbrev AtRestInv (s : State) : Prop :=
  s.finalClk = true ∧ s.finalOes.stb = s.finalOes.clk ∧ (s.finalOes.stb = true → s.finalOes.dio = true)

/-- The accumulator is 0x00 when the running command has ended (10_state.md R40). -/
abbrev AccInv (s : State) : Prop := s.rest.foldl accClearAfterMicro (s.acc == 0) = true

/-- A mark leaves the peer undefined (60_exceptions.md R191). -/
abbrev PeerInv (s : State) : Prop := s.viol ≠ ViolSet.empty → s.peer = .undefined

/-- The peer's display memory is in canonical form. -/
def State.memoryWf (s : State) : Bool :=
  match s.peer with
  | .known r => r.cells.wf
  | .undefined => true

/-- The host keeps the framing discipline from here on, no reset comes, and nothing has been marked. -/
abbrev FramedInv (s : State) : Prop :=
  s.viol = ViolSet.empty ∧ true ∉ s.rstPlan ∧ framed s.finalOes.stb (!s.finalStb) s.port = true

end Sys2Proof.Machine
end

