-- ==== Sys2Proof/Certificates/Slice0/Obligations.lean ====
section
/-! DEFINITION. The statements for the provers. OBLIGATIONS.json lists each with its tier and the rules it cites. -/

open Sys2Proof Sys2Proof.Machine

/-! ### Encoding and decoding -/

/-- 30_encoding.md R84, R87, R93 and 95_test_vectors.md 2.1: words written out from the tables decode to what they
stand for. -/
def Obligations.WrittenOutWordsDecode : Prop :=
  decodeWord 0b0000000000000000 = .ok .configure ∧
    decodeWord 0b0000000100000000 = .ok .openTxn ∧
    decodeWord 0b0000001000000000 = .ok .closeTxn ∧
    decodeWord 0b0000001101000010 = .ok (.sendByte 0x42) ∧
    decodeWord 0b0000010000000000 = .ok .readKeyboard ∧
    decodeWord 0b0000010111001000 = .ok (.setBrightness 200) ∧
    decodeWord 0b0000011000000000 = .ok .clearDisplay ∧
    decodeWord 0b0000011111111111 = .ok (.reservedOp7 0xFF) ∧
    decodeWord 0b1000001100000000 = .ok (.rsvNonZero 0b10000 0b011 0x00) ∧
    decodeWord 0b0000000111111111 = .error (.argNotZero 0b001 0xFF) ∧
    decodeSerial 0b01000010 = .ok .serReadKeyScan ∧
    decodeSerial 0b10001101 = .ok (.serSetBrightness 5) ∧
    decodeSerial 0b11001010 = .ok (.serSetAddress 10) ∧
    decodeSerial 0b01000001 = .error (.notACommandByte 0x41)

/-- Decoding gives back every well-formed instruction that was encoded. -/
def Obligations.DecodeOfEncodeIsIdentity : Prop :=
  ∀ i : Instr, i.WellFormed → decode (encode i) = .ok i

/-- Every word or byte that decodes has one meaning, and it is that meaning's encoding: no bit is dropped. -/
def Obligations.EncodeOfDecodeIsIdentity : Prop :=
  ∀ (e : Encoding) (i : Instr), decode e = .ok i → i.WellFormed ∧ encode i = e

/-- 30_encoding.md R88 with R86's `legal` and the three classes of R87: a legal word is its operation with its argument,
an illegal one is none. That a word of two classes counts as class (a) before (b), and that class (c) is a refusal of the
decoder, which the step answers with IllegalCommand, is the model's choice (log 18). -/
def Obligations.LegalWordsAreTheOperations : Prop :=
  ∀ w : Word,
    (legal w = true → ∃ op : Op, op.code = w.op ∧ decodeWord w = .ok (op.instr w.arg)) ∧
    (legal w = false →
      (w.rsv ≠ 0 ∧ decodeWord w = .ok (.rsvNonZero w.rsv w.op w.arg)) ∨
      (w.rsv = 0 ∧ w.op = 0b111 ∧ decodeWord w = .ok (.reservedOp7 w.arg)) ∨
      (w.rsv = 0 ∧ w.op ∈ [0b000, 0b001, 0b010, 0b100, 0b110] ∧ w.arg ≠ 0x00 ∧
        decodeWord w = .error (.argNotZero w.op w.arg)))

/-- 43_display_commands.md R156, the full table of `enc_bright`. -/
def Obligations.BrightnessEncoderTable : Prop :=
  encBright 0 = 0x80 ∧
    (∀ v : Byte, 1 ≤ v → v ≤ 7 → encBright v = 0x88 + v) ∧
    (∀ v : Byte, 8 ≤ v → encBright v = 0x8F)

/-- 30_encoding.md R91: the words of each pseudo-instruction's expansion, with WRITE_RUN refused past cell 0x0F; each is
a legal word. R90: its example, and what the assembler refuses. -/
def Obligations.PseudoInstructionsExpandToLegalWords : Prop :=
  (∀ (c v v0 : Byte) (a : BitVec 4) (vs : List Byte),
    let words := fun p : Pseudo => (expandPseudo p).map hostWords
    words .displayOff = .ok [0x0500] ∧
      words (.sendCmd c) = .ok [0x0100, 0x0300 ||| c.setWidth 16, 0x0200] ∧
      words .setModeAuto = .ok [0x0100, 0x0340, 0x0200] ∧
      words .setModeFixed = .ok [0x0100, 0x0344, 0x0200] ∧
      words (.writeCell a v) =
        .ok [0x0100, 0x0344, 0x0200, 0x0100, 0x03C0 ||| a.setWidth 16, 0x0300 ||| v.setWidth 16, 0x0200] ∧
      words (.writeRun a v0 vs) =
        (if a.toNat + vs.length ≤ 15 then
          .ok ([0x0100, 0x0340, 0x0200, 0x0100, 0x03C0 ||| a.setWidth 16]
            ++ (v0 :: vs).map (fun b => 0x0300 ||| b.setWidth 16) ++ [0x0200])
        else .error .runPastLastCell)) ∧
  (∀ (p : Pseudo) (is : List Instr), expandPseudo p = .ok is →
    is ≠ [] ∧ ∀ i ∈ is, ∃ w : Word, encode i = .host16 w ∧ legal w = true) ∧
  assemble ["SEND_BYTE 0x42".toList] = .ok [0x0342] ∧
  assembleLine "SEND_BYTE 256".toList = .error .operandOutOfRange ∧
  assembleLine "SEND_BYTE".toList = .error .missingOperand ∧
  assembleLine "OPEN 1".toList = .error .unexpectedOperand

/-! ### The step -/

/-- An idle block takes the word on its port: the step is `exec` of the decoded instruction, on the state with the word
and the level of `rst_i` used up (10_state.md R48). -/
def Obligations.StepRunsTheDecodedWord : Prop :=
  ∀ (s : State) (w : Word) (ws : List Word) (i : Instr),
    s.rstLevel = false → s.serialIn = none → s.busy = false → s.port = w :: ws → decodeWord w = .ok i →
      step s = exec i { s with port := ws, rstPlan := s.rstPlan.tail }

/-- A command byte the peer has received is executed: the step is `exec` of the decoded command (log 20). -/
def Obligations.StepRunsThePeersCommand : Prop :=
  ∀ (s : State) (b : Byte) (i : Instr),
    s.rstLevel = false → s.serialIn = some b → decodeSerial b = .ok i →
      step s = exec i { s with serialIn := none, rstPlan := s.rstPlan.tail }

/-- 10_state.md R49 and R50: a busy block performs `T[idx]`, `idx` moves on by 1, and `busy` falls exactly where that
was the last micro-operation of T. Nothing else of the block changes, and no word is taken. -/
def Obligations.BusyStepPerformsOneMicroOperation : Prop :=
  ∀ (s : State) (m : MicroOp),
    s.rstLevel = false → s.serialIn = none → s.busy = true → s.trace[s.idx.toNat]? = some m →
      ∃ t, step s = .next t ∧
        t.withoutPeer =
          { performBlock m s with
            idx := s.idx + 1
            busy := (s.idx.toNat + 1 != s.trace.length)
            rstPlan := s.rstPlan.tail }.withoutPeer

/-- 60_exceptions.md R192: an idle block with no word presented waits. -/
def Obligations.IdleBlockWaits : Prop :=
  ∀ s : State, s.rstLevel = false → s.serialIn = none → s.busy = false → s.port = [] →
    step s = .next { s with rstPlan := s.rstPlan.tail }

/-- 60_exceptions.md R170: an illegal word, of whichever class, is consumed, sets `illegal`, appends one event, and
changes nothing else. -/
def Obligations.IllegalWordIsRejected : Prop :=
  ∀ (s : State) (w : Word) (ws : List Word),
    s.rstLevel = false → s.serialIn = none → s.busy = false → s.port = w :: ws → legal w = false →
      step s =
        .next { s with port := ws, rstPlan := s.rstPlan.tail, illegal := true, ev := s.ev ++ [Event.rejected w] }

/-- The two illegal classes of the table complete as IllegalCommand (R87, R170): a word with op 0b111, and a word with a
bit of `rsv` set, whatever its other fields. -/
def Obligations.IllegalInstructionsComplete : Prop :=
  ∀ (s : State) (rsv : BitVec 5) (op : BitVec 3) (arg : Byte), s.busy = false →
    exec (.reservedOp7 arg) s =
        .next { s with illegal := true, ev := s.ev ++ [Event.rejected (0x0700 ||| arg.setWidth 16)] } ∧
      (rsv ≠ 0 →
        exec (.rsvNonZero rsv op arg) s =
          .next { s with illegal := true, ev := s.ev ++ [Event.rejected (rsv ++ op ++ arg)] })

/-- 60_exceptions.md R179 (2), 10_state.md R47: a busy block takes no word. -/
def Obligations.BusyBlockTakesNoWord : Prop :=
  ∀ (s : State) (w : Word) (i : Instr), s.busy = true → decodeWord w = .ok i → exec i s = .next s

/-- 70_reset_and_hazards.md R201 (with R177 and R203): a step with `rst_i = 1`, whatever the block was doing, leaves
every element of the block at its reset value, keeps the ghosts, and marks V_RESET_ABORT exactly where a command ran or
strobe was low. What the synchroniser holds is unspecified, so it is left open here. -/
def Obligations.ResetEdgeLeavesResetValues : Prop :=
  ∀ s : State, s.rstLevel = true →
    ∃ t, step s = .next t ∧
      t.statusO = 0xE0 ∧ t.keybufO = 0x00000000 ∧
      t.withoutPeer =
        { s with
          stbQ := true, clkQ := true, dioQ := true
          stbOe := false, clkOe := false, dioOe := false
          keybuf := #v[0x00, 0x00, 0x00, 0x00]
          acc := 0x00, illegal := false, busy := false
          curOp := 0, argQ := 0x00, idx := 0, dly := 0
          sync := t.sync
          viol := { s.viol with resetAbort := s.viol.resetAbort || s.busy || !s.stbQ }
          rstPlan := s.rstPlan.tail }.withoutPeer

/-- The outputs of the block in every state: each bit of `status_o` (10_state.md R46), with its value after reset and its
value with the three pins driven from there, `cmd_ready_o` (R47), and byte k of `keybuf_o` (20_memory.md R62). -/
def Obligations.HostOutputs : Prop :=
  State.reset.statusO = 0xE0 ∧
    State.statusO { State.reset with stbOe := true, clkOe := true, dioOe := true } = 0xFC ∧
  ∀ s : State,
    (s.statusO.getLsbD 0 = s.busy ∧ s.statusO.getLsbD 1 = s.illegal ∧ s.statusO.getLsbD 2 = s.stbOe ∧
      s.statusO.getLsbD 3 = s.clkOe ∧ s.statusO.getLsbD 4 = s.dioOe ∧ s.statusO.getLsbD 5 = s.stbQ ∧
      s.statusO.getLsbD 6 = s.clkQ ∧ s.statusO.getLsbD 7 = s.dioQ) ∧
    (s.cmdReadyO = true ↔ s.busy = false ∧ s.rstLevel = false) ∧
    ∀ k : Fin 4, s.keybufO.extractLsb' (8 * k.val) 8 = s.keybuf[k]

/-! ### Acceptance -/

/-- 10_state.md R48: an idle block that takes a legal word holds its operation and argument at index 0, clears
`illegal`, raises `busy`, and changes nothing else but the ghost marks and the peer; no pin changes. -/
def Obligations.LegalWordIsAccepted : Prop :=
  ∀ (s : State) (op : Op) (arg : Byte), s.busy = false → (op.takesArg = true ∨ arg = 0x00) →
    ∃ t, exec (op.instr arg) s = .next t ∧
      t = { s with
            illegal := false, curOp := op.code, argQ := arg, idx := 0, busy := true
            viol := t.viol, peer := t.peer }

/-- 60_exceptions.md R172: the marks an acceptance adds, kind by kind, and that it removes none. -/
def Obligations.AcceptanceMarksViolations : Prop :=
  ∀ (s : State) (op : Op) (arg : Byte), s.busy = false →
    ∃ t, exec (op.instr arg) s = .next t ∧
      (t.viol.has .unconfigured ↔ s.viol.has .unconfigured ∨ (op ≠ .configure ∧ s.stbOe = false)) ∧
      (t.viol.has .nestedOpen ↔
        s.viol.has .nestedOpen ∨
          (op ∈ [.openTxn, .readKeyboard, .setBrightness, .clearDisplay] ∧ s.stbQ = false)) ∧
      (t.viol.has .closeIdle ↔ s.viol.has .closeIdle ∨ (op = .closeTxn ∧ s.stbQ = true)) ∧
      (t.viol.has .sendIdle ↔ s.viol.has .sendIdle ∨ (op = .sendByte ∧ s.stbQ = true)) ∧
      (t.viol.has .resetAbort ↔ s.viol.has .resetAbort)

/-- The peer at an acceptance, from every state in which a mark leaves it undefined: untouched where no mark is new,
undefined where one is (R191; log 6). -/
def Obligations.AcceptanceLeavesThePeerOrTheMarkUndefinesIt : Prop :=
  ∀ (s : State) (op : Op) (arg : Byte), s.busy = false → PeerInv s →
    ∃ t, exec (op.instr arg) s = .next t ∧ (t.viol = s.viol → t.peer = s.peer) ∧ (t.viol ≠ s.viol → t.peer = .undefined)

/-! ### Commands run to completion -/

/-- 40_pin_control.md R110: CONFIGURE is accepted, and one micro-operation later all three pins are outputs; no latch, no
KEYBUF and no acc changes, and no mark is added (R112). -/
def Obligations.ConfigureCompletes : Prop :=
  ∀ s : State, s.IdleQuiet →
    ∃ a t, exec .configure s = .next a ∧ run 1 a = .next t ∧
      t.withoutPeer =
        { s with
          stbOe := true, clkOe := true, dioOe := true
          illegal := false, curOp := 0, argQ := 0x00, idx := 1, busy := false
          ev := s.ev ++ [Event.dir ⟨true, true, true⟩ true] }.withoutPeer

/-- 40_pin_control.md R111: a second CONFIGURE with all directions already 1 changes no level on any wire and no state
but the ghost `ev`, with the sequencer's record of the command. -/
def Obligations.ConfigureIsIdempotent : Prop :=
  ∀ s : State, s.IdleQuiet → s.Configured →
    ∃ a t, exec .configure s = .next a ∧ run 1 a = .next t ∧
      (∀ p : Pin, t.wire p = s.wire p) ∧ t.peer = s.peer ∧
      t.withoutPeer =
        { s with
          illegal := false, curOp := 0, argQ := 0x00, idx := 1
          ev := s.ev ++ [Event.dir ⟨true, true, true⟩ true] }.withoutPeer

/-- 40_pin_control.md R114: OPEN is accepted and its two micro-operations leave strobe low and nothing else of the pins,
KEYBUF or acc changed. -/
def Obligations.OpenCompletes : Prop :=
  ∀ s : State, s.IdleQuiet →
    ∃ a t, exec .openTxn s = .next a ∧ run 2 a = .next t ∧
      t.withoutPeer =
        { s with
          stbQ := false
          illegal := false, curOp := 1, argQ := 0x00, idx := 2, busy := false
          viol :=
            { s.viol with
              unconfigured := s.viol.unconfigured || !s.stbOe
              nestedOpen := s.viol.nestedOpen || !s.stbQ }
          ev := s.ev ++ [Event.pin .stb false, Event.delay] }.withoutPeer

/-- 40_pin_control.md R116: CLOSE is accepted and its two micro-operations leave strobe high. -/
def Obligations.CloseCompletes : Prop :=
  ∀ s : State, s.IdleQuiet →
    ∃ a t, exec .closeTxn s = .next a ∧ run 2 a = .next t ∧
      t.withoutPeer =
        { s with
          stbQ := true
          illegal := false, curOp := 2, argQ := 0x00, idx := 2, busy := false
          viol :=
            { s.viol with
              unconfigured := s.viol.unconfigured || !s.stbOe
              closeIdle := s.viol.closeIdle || s.stbQ }
          ev := s.ev ++ [Event.pin .stb true, Event.delay] }.withoutPeer

/-- 41_send_byte.md R125, R126, R131: SEND_BYTE v is accepted, and its 48 micro-operations drive the clock low, the data
line to bit i and the clock high for i = 0..7 with a delay after each; the clock ends high, DIO at v[7], and strobe,
directions, KEYBUF and acc are not written. -/
def Obligations.SendByteCompletes : Prop :=
  ∀ (s : State) (v : Byte), s.IdleQuiet →
    ∃ a t, exec (.sendByte v) s = .next a ∧ run 48 a = .next t ∧
      t.withoutPeer =
        { s with
          clkQ := true, dioQ := v.getLsbD 7
          illegal := false, curOp := 3, argQ := v, idx := 48, busy := false
          viol :=
            { s.viol with
              unconfigured := s.viol.unconfigured || !s.stbOe
              sendIdle := s.viol.sendIdle || s.stbQ }
          ev := s.ev ++ (bitsOfByte v).flatMap fun b =>
            [Event.pin .clk false, Event.delay, Event.pin .dio b, Event.delay, Event.pin .clk true, Event.delay] }.withoutPeer

/-- 42_read_keyboard.md R140, R142, R143, R145: READ_KEYBOARD is accepted with an empty accumulator, and its 251
micro-operations, in the order the events show, leave KEYBUF[k] the byte of draws 8k to 8k+7, the first draw the least
significant bit, DIO an output at 0 again, strobe and clock high and acc 0x00; 32 levels have been drawn. -/
def Obligations.ReadKeyboardCompletes : Prop :=
  ∀ s : State, s.IdleQuiet → s.acc = 0x00 →
    ∃ a t, exec .readKeyboard s = .next a ∧ run 251 a = .next t ∧
      t.withoutPeer =
        { s with
          stbQ := true, clkQ := true, dioQ := false, dioOe := true
          keybuf := #v[s.drawnByte 0, s.drawnByte 8, s.drawnByte 16, s.drawnByte 24]
          illegal := false, curOp := 4, argQ := 0x00, idx := 251, busy := false
          viol :=
            { s.viol with
              unconfigured := s.viol.unconfigured || !s.stbOe
              nestedOpen := s.viol.nestedOpen || !s.stbQ }
          dioPlan := s.dioPlan.drop 32, draws := s.draws + 32
          ev := s.ev ++ [Event.pin .stb false, Event.delay] ++ byteEvents 0x42
            ++ [Event.dir ⟨false, false, true⟩ false, Event.delay]
            ++ scanByteEvents 0 0 s ++ scanByteEvents 1 8 s ++ scanByteEvents 2 16 s ++ scanByteEvents 3 24 s
            ++ [Event.dir ⟨false, false, true⟩ true, Event.pin .stb true, Event.delay] }.withoutPeer

/-- 60_exceptions.md R190: a peer that answers bit j of byte k of R fills KEYBUF with R. -/
def Obligations.ReadKeyboardReturnsThePeersBytes : Prop :=
  ∀ (s : State) (R0 R1 R2 R3 : Byte) (rest : List Bool), s.IdleQuiet → s.acc = 0x00 →
    s.dioPlan = bitsOfByte R0 ++ bitsOfByte R1 ++ bitsOfByte R2 ++ bitsOfByte R3 ++ rest →
      ∃ a t, exec .readKeyboard s = .next a ∧ run 251 a = .next t ∧ t.busy = false ∧ t.dioOe = true ∧
        t.keybuf = #v[R0, R1, R2, R3] ∧ t.keybufO = R3 ++ R2 ++ R1 ++ R0

/-- 42_read_keyboard.md R146: from a configured idle block READ_KEYBOARD sends the peer exactly one frame, the
read-key-scan command; 251 events, 123 of them delays, and 40 rising clock edges. -/
def Obligations.ReadKeyboardSendsOneFrame : Prop :=
  ∀ s : State, s.ConfiguredIdle → s.acc = 0x00 →
    ∃ a t new, exec .readKeyboard s = .next a ∧ run 251 a = .next t ∧ t.ev = s.ev ++ new ∧
      frames s new = [[0x42]] ∧ t.viol = ViolSet.empty ∧ new.length = 251 ∧ new.countP (· == .delay) = 123 ∧
      new.countP (· == .pin .clk true) = 40

/-- 43_display_commands.md R155: SET_BRIGHTNESS v is accepted and its 52 micro-operations send the one encoded byte
between OPEN_SEQ and CLOSE_SEQ. -/
def Obligations.SetBrightnessCompletes : Prop :=
  ∀ (s : State) (v : Byte), s.IdleQuiet →
    ∃ a t, exec (.setBrightness v) s = .next a ∧ run 52 a = .next t ∧
      t.withoutPeer =
        { s with
          stbQ := true, clkQ := true, dioQ := true
          illegal := false, curOp := 5, argQ := v, idx := 52, busy := false
          viol :=
            { s.viol with
              unconfigured := s.viol.unconfigured || !s.stbOe
              nestedOpen := s.viol.nestedOpen || !s.stbQ }
          ev := s.ev ++ [Event.pin .stb false, Event.delay] ++ byteEvents (encBright v) ++ [Event.pin .stb true, Event.delay]
        }.withoutPeer

/-- 43_display_commands.md R158: from a configured idle block the peer receives exactly one frame, `[enc_bright(v)]`. -/
def Obligations.SetBrightnessSendsOneFrame : Prop :=
  ∀ (s : State) (v : Byte), s.ConfiguredIdle →
    ∃ a t new, exec (.setBrightness v) s = .next a ∧ run 52 a = .next t ∧ t.ev = s.ev ++ new ∧
      frames s new = [[encBright v]] ∧ t.viol = ViolSet.empty ∧ new.length = 52 ∧
      new.countP (· == .delay) = 26 ∧ new.countP (· == .pin .clk true) = 8

/-- 43_display_commands.md R159: CLEAR_DISPLAY is accepted and its 872 micro-operations send 0x40 in one transaction and
0xC0 with sixteen zero bytes in a second. -/
def Obligations.ClearDisplayCompletes : Prop :=
  ∀ s : State, s.IdleQuiet →
    ∃ a t, exec .clearDisplay s = .next a ∧ run 872 a = .next t ∧
      t.withoutPeer =
        { s with
          stbQ := true, clkQ := true, dioQ := false
          illegal := false, curOp := 6, argQ := 0x00, idx := 872, busy := false
          viol :=
            { s.viol with
              unconfigured := s.viol.unconfigured || !s.stbOe
              nestedOpen := s.viol.nestedOpen || !s.stbQ }
          ev := s.ev ++ [Event.pin .stb false, Event.delay] ++ byteEvents 0x40 ++ [Event.pin .stb true, Event.delay]
            ++ [Event.pin .stb false, Event.delay] ++ byteEvents 0xC0 ++ (List.replicate 16 (byteEvents 0x00)).flatten
            ++ [Event.pin .stb true, Event.delay] }.withoutPeer

/-- 43_display_commands.md R160: exactly two transactions, 0x40 alone, then 0xC0 and exactly sixteen zero bytes. -/
def Obligations.ClearDisplaySendsTwoFrames : Prop :=
  ∀ s : State, s.ConfiguredIdle →
    ∃ a t new, exec .clearDisplay s = .next a ∧ run 872 a = .next t ∧ t.ev = s.ev ++ new ∧
      frames s new = [[0x40], 0xC0 :: List.replicate 16 0x00] ∧ t.viol = ViolSet.empty

/-- 43_display_commands.md R161, R162: under the peer reference semantics of 20_memory.md R69 CLEAR_DISPLAY selects
auto-increment mode and leaves 0x00 in every cell of a peer whose registers are known, whatever they held. The peer is
the model's (logs 6 to 9). -/
def Obligations.ClearDisplayBlanksEveryCell : Prop :=
  ∀ (s : State) (r : PeerRegs), s.ConfiguredIdle → s.peer = .known r →
    ∃ a t q, exec .clearDisplay s = .next a ∧ run 872 a = .next t ∧ t.peer = .known q ∧
      q.addrMode = .autoInc ∧ ∀ c : BitVec 4, q.cells.read c.toNat = some 0x00 ∧ q.cell c = 0x00

/-- 41_send_byte.md R129, R130: a whole transaction that the host frames itself, OPEN, any bytes by SEND_BYTE, CLOSE, is
received by the peer as exactly those bytes, and leaves no mark and no transaction open. -/
def Obligations.FramedTransactionIsReceivedWhole : Prop :=
  ∀ (s : State) (vs : List Byte), s.ConfiguredIdle →
    s.port = 0x0100 :: vs.map (fun v => 0x0300 ||| v.setWidth 16) ++ [0x0200] →
      ∃ t new, run (6 + 49 * vs.length) s = .next t ∧ t.ev = s.ev ++ new ∧ frames s new = [vs] ∧
        t.endedClean = true

/-- 70_reset_and_hazards.md R215: the micro-operations, delays and clock pulses of each command. -/
def Obligations.TraceFigures : Prop :=
  ∀ v : Byte,
    let figures := fun T : List MicroOp =>
      (T.length, T.countP MicroOp.isWait, T.countP (fun m => !m.isWait), T.countP (· == .setPin .clk true))
    figures (traceOf .configure 0) = (1, 0, 1, 0) ∧
      figures (traceOf .openTxn 0) = (2, 1, 1, 0) ∧
      figures (traceOf .closeTxn 0) = (2, 1, 1, 0) ∧
      figures (traceOf .sendByte v) = (48, 24, 24, 8) ∧
      figures (traceOf .readKeyboard 0) = (251, 123, 128, 40) ∧
      figures (traceOf .setBrightness v) = (52, 26, 26, 8) ∧
      figures (traceOf .clearDisplay 0) = (872, 436, 436, 144)

/-! ### The peer -/

/-- 60_exceptions.md R187, 20_memory.md R69: the mode commands of a peer whose registers are known. That nothing else of
the peer changes (pointer, cells, brightness, display) is the model's choice (log 24), not the spec's word. -/
def Obligations.ModeCommandsComplete : Prop :=
  ∀ (s : State) (r : PeerRegs), s.peer = .known r →
    exec .serAddrAutoInc s = .next { s with peer := .known { r with mode := .set .autoInc, phase := .commanded } } ∧
      exec .serFixedAddr s = .next { s with peer := .known { r with mode := .set .fixed, phase := .commanded } }

/-- R187: the key-scan and set-address commands. That nothing else of the peer changes is the model's choice (log 24),
not the spec's word. -/
def Obligations.KeyScanAndAddressCommandsComplete : Prop :=
  ∀ (s : State) (r : PeerRegs) (a : BitVec 4), s.peer = .known r →
    exec .serReadKeyScan s = .next { s with peer := .known { r with phase := .keyScan } } ∧
      exec (.serSetAddress a) s = .next { s with peer := .known { r with ptr := .cell a, phase := .addressed 0 } }

/-- R187: the display commands; what set-brightness does to the display's being on is left free (U11; log 10). That
mode, pointer and cells, and for 0x80 the brightness, do not change is the model's choice (log 24), not the spec's
word. -/
def Obligations.DisplayCommandsComplete : Prop :=
  ∀ (s : State) (r : PeerRegs) (b : BitVec 3), s.peer = .known r →
    (∃ q, exec .serDisplayOff s = .next { s with peer := .known q } ∧
      q.displayOn = false ∧ q = { r with power := q.power, phase := .commanded }) ∧
    (∃ q, exec (.serSetBrightness b) s = .next { s with peer := .known q } ∧
      q.brightnessLevel = b ∧
      q = { r with brightness := q.brightness, power := q.power, free := q.free, phase := .commanded })

/-- No serial command does anything to the block, and an undefined peer stays undefined (R129, R191). -/
def Obligations.SerialCommandsLeaveTheBlockAlone : Prop :=
  ∀ (s : State) (b : Byte) (i : Instr), decodeSerial b = .ok i →
    ∃ t, exec i s = .next t ∧ t = { s with peer := t.peer } ∧ (s.peer = .undefined → t.peer = .undefined)

/-- 41_send_byte.md R129: at a rising edge of the clock on the wire, strobe low and DIO driven by the block, a known peer
takes the DIO level as its next bit; the eighth bit completes a byte, least significant bit first, which is a command
byte where it is the transaction's first (30_encoding.md R92) and a data byte after set-address (20_memory.md R69). The
model's choices: any other byte leaves the peer undefined, and with strobe not low the clock gives the peer nothing (log
11; R128 leaves open what else the peer does then), and a command byte waits in `serialIn` (log 20). -/
def Obligations.PeerTakesABitAtTheRisingEdge : Prop :=
  ∀ (s : State) (r : PeerRegs), s.peer = .known r → s.wire .clk = .low →
    let t := perform (.setPin .clk true) s
    let v := byteOfBits (r.bits ++ [s.dioQ])
    (s.wire .stb = .low → s.dioOe = true →
      (r.bits.length ≠ 7 → t.peer = .known { r with bits := r.bits ++ [s.dioQ] } ∧ t.serialIn = s.serialIn) ∧
      (r.bits.length = 7 →
        (r.phase = .selected → t.peer = .known { r with bits := [] } ∧ t.serialIn = some v) ∧
        (∀ n, r.phase = .addressed n →
          t.peer = .known (dataByte n v { r with bits := [] }) ∧ t.serialIn = s.serialIn) ∧
        (r.phase = .idle ∨ r.phase = .commanded ∨ r.phase = .keyScan → t.peer = .undefined ∧ t.serialIn = s.serialIn))) ∧
    (s.wire .stb ≠ .low ∨ s.dioOe = false → t.peer = .known r ∧ t.serialIn = s.serialIn)

/-- 41_send_byte.md R129, 60_exceptions.md R187: a transaction as a known peer sees it. Strobe falling on the wire begins
one and strobe rising ends it, whatever bits were left over. SEND_BYTE v in an open transaction gives the peer v: as the
first byte it is executed as the serial command it encodes (R92), after set-address it is a data byte (20_memory.md R69).
The model's choices: a byte the spec gives no meaning leaves the peer undefined (log 11), and the command is executed by
the end of SEND_BYTE (log 20). -/
def Obligations.PeerFollowsATransaction : Prop :=
  ∀ (s : State) (r : PeerRegs), s.peer = .known r →
    (s.wire .stb = .high →
      (perform (.setPin .stb false) s).peer = .known { r with phase := .selected, bits := [] }) ∧
    (s.wire .stb = .low → (perform (.setPin .stb true) s).peer = .known { r with phase := .idle, bits := [] }) ∧
    (s.InTransaction → r.bits = [] → ∀ v : Byte,
      ∃ a t, exec (.sendByte v) s = .next a ∧ run 48 a = .next t ∧ t.serialIn = none ∧
        (r.phase = .selected →
          (∀ i, decodeSerial v = .ok i → ∃ u, exec i s = .next u ∧ t.peer = u.peer) ∧
          (∀ e, decodeSerial v = .error e → t.peer = .undefined)) ∧
        (∀ n, r.phase = .addressed n → t.peer = .known (dataByte n v r)) ∧
        (r.phase = .idle ∨ r.phase = .commanded ∨ r.phase = .keyScan → t.peer = .undefined))

/-- 20_memory.md R69: data bytes after set-address a in auto-increment mode fill the cells from a on, one each, and
leave every other cell alone, as long as the run does not pass 0x0F. -/
def Obligations.AutoIncrementRunFillsConsecutiveCells : Prop :=
  ∀ (vs : List Byte) (r : PeerRegs) (a : BitVec 4) (n : Nat), r.mode = .set .autoInc → r.ptr = .cell a →
    a.toNat + vs.length ≤ 16 →
      ∀ c : Nat,
        ((vs.foldl (fun (p : Nat × PeerRegs) v => (p.1 + 1, dataByte p.1 v p.2)) (n, r)).2).cells.read c =
          if a.toNat ≤ c ∧ c < a.toNat + vs.length then vs[c - a.toNat]? else r.cells.read c

/-- 20_memory.md R69: in fixed-address mode the first data byte goes to the addressed cell alone, and the pointer
stays. -/
def Obligations.FixedModeDataByteWritesOneCell : Prop :=
  ∀ (r : PeerRegs) (a : BitVec 4) (v : Byte), r.mode = .set .fixed → r.ptr = .cell a →
    (dataByte 0 v r).ptr = .cell a ∧
      ∀ c : Nat, (dataByte 0 v r).cells.read c = if c = a.toNat then some v else r.cells.read c

/-! ### Invariants of every step -/

/-- The reset state: what its ports show (70_reset_and_hazards.md R201, 95_test_vectors.md V-RS-1), no mark and no event
(10_state.md R55), and all the invariants. -/
def Obligations.ResetStateOutputsAndInvariants : Prop :=
  State.reset.statusO = 0xE0 ∧ State.reset.keybufO = 0x00000000 ∧ State.reset.cmdReadyO = true ∧
    State.reset.viol = ViolSet.empty ∧ State.reset.ev = [] ∧
    SequencerInv State.reset ∧ AtRestInv State.reset ∧ AccInv State.reset ∧ PeerInv State.reset ∧
    State.reset.memoryWf = true ∧ FramedInv State.reset ∧ DlyInv State.reset

/-- 10_state.md R44: the sequencer stays inside its trace, which is at most 872 long, in every state a step gives. -/
def Obligations.StepKeepsTheSequencerInsideItsTrace : Prop :=
  ∀ s t : State, SequencerInv s → step s = .next t → SequencerInv t ∧ t.trace.length ≤ 872

/-- The block's rules are total: no step of a state whose sequencer is inside its trace faults or refuses. -/
def Obligations.StepNeverStops : Prop :=
  ∀ s : State, SequencerInv s → ∃ t, step s = .next t

/-- 10_state.md R53, R54: clock and data direction come to rest, kept by every step from every state. -/
def Obligations.StepKeepsThePinsComingToRest : Prop :=
  ∀ s t : State, AtRestInv s → step s = .next t → AtRestInv t

/-- 10_state.md R53 and R54 in their own terms: in a state that meets the invariant, an idle block has the clock high,
and if it is configured DIO is an output. -/
def Obligations.IdlePinsAreAtRest : Prop :=
  ∀ s : State, AtRestInv s → s.busy = false → s.clkQ = true ∧ (s.stbOe = true → s.clkOe = true ∧ s.dioOe = true)

/-- 10_state.md R40: the accumulator is 0x00 whenever no command runs, kept by every step. -/
def Obligations.StepKeepsTheAccumulatorEmptyAtRest : Prop :=
  ∀ s t : State, AccInv s → step s = .next t → AccInv t ∧ (t.busy = false → t.acc = 0x00)

/-- 60_exceptions.md R191: once anything is marked the peer is undefined, kept by every step. -/
def Obligations.StepKeepsTheMarkedPeerUndefined : Prop :=
  ∀ s t : State, PeerInv s → step s = .next t → PeerInv t

/-- The peer's display memory keeps its canonical form. -/
def Obligations.StepKeepsTheDisplayMemoryCanonical : Prop :=
  ∀ s t : State, s.memoryWf = true → step s = .next t → t.memoryWf = true

/-- 70_reset_and_hazards.md R209, R214: while the host keeps the framing discipline and no reset comes, no step marks a
violation. -/
def Obligations.FramedHostNeverViolates : Prop :=
  ∀ s t : State, FramedInv s → step s = .next t → FramedInv t ∧ t.viol = ViolSet.empty

/-- 10_state.md R55: no step, a reset included, removes a mark or an event. -/
def Obligations.GhostsOnlyGrow : Prop :=
  ∀ s t : State, step s = .next t →
    (∀ k : Violation, s.viol.has k = true → t.viol.has k = true) ∧ ∃ new, t.ev = s.ev ++ new

/-- 40_pin_control.md R113: the direction latches have no writers but reset, CONFIGURE and READ_KEYBOARD's two turns of
the data pin. -/
def Obligations.DirectionLatchWriters : Prop :=
  ∀ s t : State, step s = .next t → t.oes ≠ s.oes →
    (s.rstLevel = true ∧ t.oes = ⟨false, false, false⟩) ∨
    (s.busy = true ∧ s.curOp = Op.configure.code ∧ t.oes = ⟨true, true, true⟩) ∨
    (s.busy = true ∧ s.curOp = Op.readKeyboard.code ∧ s.idx.toNat = 50 ∧ t.oes = ⟨s.stbOe, s.clkOe, false⟩) ∨
    (s.busy = true ∧ s.curOp = Op.readKeyboard.code ∧ s.idx.toNat = 248 ∧ t.oes = ⟨s.stbOe, s.clkOe, true⟩)

/-- 10_state.md R39: KEYBUF is written by the four stores of READ_KEYBOARD and by reset alone. -/
def Obligations.KeybufWriters : Prop :=
  ∀ s t : State, step s = .next t → t.keybuf ≠ s.keybuf →
    s.rstLevel = true ∨
      (s.busy = true ∧ s.curOp = Op.readKeyboard.code ∧
        ∃ k : Fin 4, s.idx.toNat = 100 + 49 * k.val ∧ t.keybuf = s.keybuf.set k.val s.acc)

/-- 41_send_byte.md R129 and 10_state.md R37: no rule of the block reads the peer. Two states that differ in the peer
alone go to states that differ in the peer alone. -/
def Obligations.BlockNeverReadsThePeer : Prop :=
  ∀ s t : State, s.withoutPeer = t.withoutPeer → s.serialIn = none → t.serialIn = none →
    (∀ s', step s = .next s' → ∃ t', step t = .next t' ∧ s'.withoutPeer = t'.withoutPeer)

/-- 60_exceptions.md R192: every command ends. A quiet busy block whose sequencer is inside its trace is idle after at
most 872 steps. -/
def Obligations.EveryCommandTerminates : Prop :=
  ∀ s : State, s.busy = true → s.Quiet → SequencerInv s →
    ∃ n t, n ≤ 872 ∧ run n s = .next t ∧ t.busy = false

/-! ### Clock edges -/

/-- 00_scope.md R9, 70_reset_and_hazards.md R207: DELAY_CYCLES / F_CLK is at least T_D_MIN = 5 us, whatever the open
parameters are. -/
def Obligations.DelayMeetsTheLowerBound : Prop :=
  5 * fClk ≤ delayCycles * 1000000 ∧ 0 < delayCycles

/-- 10_state.md R45: the delay counter has the least width that holds DELAY_CYCLES, and every clock edge, as every step
without time, keeps it inside that width. -/
def Obligations.DelayCounterStaysInItsWidth : Prop :=
  (delayCycles < 2 ^ dlyWidth ∧ 2 ^ (dlyWidth - 1) ≤ delayCycles) ∧
    ∀ s t : State, DlyInv s → clockEdge s = .next t ∨ step s = .next t → DlyInv t

/-- 10_state.md R45: a `Wait` whose counter has been loaded lasts exactly DELAY_CYCLES clock edges; until the last of
them nothing but the counter, the synchroniser and the draws moves, and then the block is where one step takes it. -/
def Obligations.WaitLastsDelayCyclesEdges : Prop :=
  ∀ s : State, s.busy = true → s.Quiet → s.currentMicro = some .wait → s.dly = delayCycles - 1 →
    (∀ n, n < delayCycles → ∃ t, clockRun n s = .next t ∧ t.withoutClock = s.withoutClock) ∧
    ∃ t u, clockRun delayCycles s = .next t ∧ step s = .next u ∧ t.withoutClock = u.withoutClock

/-- 10_state.md R49, R33: any other micro-operation completes in one clock edge, and takes the block where one step
takes it when the step's draw is the level the synchroniser shows. -/
def Obligations.OtherMicroOperationsLastOneEdge : Prop :=
  ∀ (s : State) (m : MicroOp), s.busy = true → s.Quiet → s.currentMicro = some m → m.isWait = false →
    ∃ t u, clockEdge s = .next t ∧ step { s with dioPlan := s.sync.second :: s.dioPlan } = .next u ∧
      t.withoutClock = u.withoutClock

/-- 70_reset_and_hazards.md R215: `busy` stays 1 for N_op + N_wait x DELAY_CYCLES clock edges after the acceptance of any
command, and falls then. -/
def Obligations.BusyLastsAsTheTimingTableSays : Prop :=
  ∀ (s : State) (op : Op) (arg : Byte), s.IdleQuiet → (op.takesArg = true ∨ arg = 0x00) →
    ∃ a, exec (op.instr arg) s = .next a ∧
      (∀ n, n < busyCycles (traceOf op arg) → ∃ t, clockRun n a = .next t ∧ t.busy = true) ∧
      ∃ t, clockRun (busyCycles (traceOf op arg)) a = .next t ∧ t.busy = false
end

