-- ==== Sys2Proof/Laws/Assembler.lean ====
section
/-! SUPPORT. The words of the assembler's expansions (30_encoding.md R91). -/

namespace Sys2Proof.Machine

theorem hostWords_append (xs ys : List Instr) : hostWords (xs ++ ys) = hostWords xs ++ hostWords ys := by
  induction xs with
  | nil => rfl
  | cons x xs ih =>
    rw [List.cons_append, hostWords, hostWords]
    split
    · rw [ih, List.cons_append]
    · exact ih

/-- The word of SEND_BYTE v (R84). -/
theorem hostWord_sendByte : ∀ v : Byte, hostWord 0 Op.sendByte.code v = 0x0300 ||| v.setWidth 16 := by decide

/-- The words of OPEN, a SEND_BYTE for each byte, CLOSE (R91). -/
theorem hostWords_asmTransaction (vs : List Byte) :
    hostWords (asmTransaction vs) = 0x0100 :: vs.map (fun b => 0x0300 ||| b.setWidth 16) ++ [0x0200] := by
  have tail : hostWords (vs.map .sendByte ++ [.closeTxn]) = vs.map (fun b => 0x0300 ||| b.setWidth 16) ++ [0x0200] := by
    induction vs with
    | nil => rfl
    | cons v vs ih =>
      rw [List.map_cons, List.cons_append, List.map_cons, List.cons_append, ← ih, ← hostWord_sendByte]
      rfl
  exact congrArg (0x0100 :: ·) tail

/-- SEND_BYTE of a set-address byte (R91, R94). -/
theorem sendSetAddress_word : ∀ a : BitVec 4,
    (0x0300 : Word) ||| (Ser.setAddress a).setWidth 16 = 0x03C0 ||| a.setWidth 16 := by decide

end Sys2Proof.Machine
end

