-- ==== Sys2Proof/Laws/Decode.lean ====
section
/-! SUPPORT. The decoder: the fields of a host word, and what a legal and an illegal word decode to (30_encoding.md R80 to R88). -/

namespace Sys2Proof.Machine

/-! ### Fields of a host word (R80) -/

@[simp] theorem rsv_hostWord (r : BitVec 5) (o : BitVec 3) (a : Byte) : (hostWord r o a).rsv = r := by
  simp only [hostWord, Word.rsv]
  ext i hi
  simp only [BitVec.getElem_extractLsb', BitVec.getLsbD_append]
  simp [show ¬ (11 + i < 8) by omega, show ¬ (11 + i - 8 < 3) by omega, show 11 + i - 8 - 3 = i by omega,
    BitVec.getLsbD_eq_getElem, hi]

@[simp] theorem op_hostWord (r : BitVec 5) (o : BitVec 3) (a : Byte) : (hostWord r o a).op = o := by
  simp only [hostWord, Word.op]
  ext i hi
  simp only [BitVec.getElem_extractLsb', BitVec.getLsbD_append]
  simp [show 8 + i - 8 = i by omega, BitVec.getLsbD_eq_getElem, hi]

@[simp] theorem arg_hostWord (r : BitVec 5) (o : BitVec 3) (a : Byte) : (hostWord r o a).arg = a := by
  simp only [hostWord, Word.arg]
  ext i hi
  simp only [BitVec.getElem_extractLsb', BitVec.getLsbD_append]
  simp [BitVec.getLsbD_eq_getElem, hi]

/-- A host word is its three fields (R80). -/
theorem hostWord_fields (w : Word) : hostWord w.rsv w.op w.arg = w := by
  simp only [hostWord, Word.rsv, Word.op, Word.arg]
  ext i hi
  simp only [BitVec.getElem_append, BitVec.getElem_extractLsb']
  split
  · simp [BitVec.getLsbD_eq_getElem, *]
  · split
    · rw [show 8 + (i - 8) = i by omega]; simp [BitVec.getLsbD_eq_getElem, *]
    · rw [show 11 + (i - 8 - 3) = i by omega]; simp [BitVec.getLsbD_eq_getElem, *]

/-! ### Legal and illegal words -/

theorem op_values (c : BitVec 3) : c = 7 ∨ c = 0 ∨ c = 1 ∨ c = 2 ∨ c = 3 ∨ c = 4 ∨ c = 5 ∨ c = 6 := by
  revert c
  decide

/-- What the decoder reads from a word, in the terms of 30_encoding.md R88: an operation where the word is legal. -/
theorem decodeWord_legal {w : Word} (h : legal w = true) :
    ∃ op : Op, Op.ofCode w.op = some op ∧ op.code = w.op ∧ (op.takesArg = true ∨ w.arg = 0x00) ∧
      decodeWord w = .ok (op.instr w.arg) := by
  simp only [legal, Bool.and_eq_true, Bool.or_eq_true, beq_iff_eq, bne_iff_ne] at h
  obtain ⟨⟨hr, h7⟩, ha⟩ := h
  unfold decodeWord
  rw [if_neg (not_not.mpr hr)]
  generalize w.op = c at h7 ha ⊢
  rcases (op_values c).resolve_left h7 with rfl | rfl | rfl | rfl | rfl | rfl | rfl
  all_goals simp [Op.ofCode, Op.code, Op.takesArg] at ha ⊢
  all_goals try exact ha

/-- An illegal word is refused by the decoder or is one of the two illegal classes of the table (R87). -/
theorem decodeWord_illegal {w : Word} (h : legal w = false) :
    (w.rsv ≠ 0 ∧ decodeWord w = .ok (.rsvNonZero w.rsv w.op w.arg)) ∨
      (w.rsv = 0 ∧ w.op = 0b111 ∧ decodeWord w = .ok (.reservedOp7 w.arg)) ∨
      (w.rsv = 0 ∧ w.op ∈ [0b000, 0b001, 0b010, 0b100, 0b110] ∧ w.arg ≠ 0x00 ∧
        decodeWord w = .error (.argNotZero w.op w.arg)) := by
  by_cases hr : w.rsv = 0
  · right
    unfold decodeWord
    rw [if_neg (not_not.mpr hr)]
    simp only [legal, hr] at h
    generalize w.op = c at h ⊢
    rcases op_values c with rfl | rfl | rfl | rfl | rfl | rfl | rfl | rfl
    · exact .inl ⟨hr, rfl, rfl⟩
    all_goals simp at h
    all_goals
      refine .inr ⟨hr, by decide, h, ?_⟩
      simp [Op.ofCode, Op.takesArg, h]
  · left
    refine ⟨hr, ?_⟩
    unfold decodeWord
    rw [if_pos hr]

end Sys2Proof.Machine
end

