-- ==== Sys2Proof/Laws/Memory.lean ====
section
/-! SUPPORT. The laws of the peer's display memory: a write is read back, leaves every other address alone, and keeps the canonical form. -/

namespace Sys2Proof.Machine

@[simp] theorem read_nil (a : Nat) : Memory.read [] a = none := rfl

@[simp] theorem read_cons (c : Host.Cell) (m : Memory) (a : Nat) :
    Memory.read (c :: m) a = if a = c.1 then some c.2 else m.read a := rfl

/-- A read after a write. -/
theorem read_write (m : Memory) (a : Nat) (v : Byte) (b : Nat) :
    (m.write a v).read b = if b = a then some v else m.read b := by
  induction m with
  | nil => simp [Memory.write]
  | cons c m ih =>
    obtain ⟨k, w⟩ := c
    simp only [Memory.write]
    split
    · simp
    · split
      · next h => subst h; simp only [read_cons]; split <;> rfl
      · simp only [read_cons, ih]; split
        · next h => subst h; rw [if_neg (by omega)]
        · rfl

/-- A write above a bound keeps the form above that bound. -/
theorem wfAbove_write {m : Memory} {lo : Option Nat} {a : Nat} (v : Byte) (h : m.wfAbove lo = true)
    (hlo : isAbove lo a = true) (ha : a < Config.displayCells) : (m.write a v).wfAbove lo = true := by
  induction m generalizing lo with
  | nil => simp [Memory.write, Memory.wfAbove, hlo, ha]
  | cons c m ih =>
    obtain ⟨b, w⟩ := c
    simp only [Memory.wfAbove, Bool.and_eq_true, decide_eq_true_eq] at h
    simp only [Memory.write]
    split
    · next hab =>
      have hab' : isAbove (some a) b = true := by simp only [isAbove, decide_eq_true_eq]; omega
      simp [Memory.wfAbove, hlo, ha, h.1.2, h.2, hab']
    · split
      · next hab => subst hab; simp [Memory.wfAbove, hlo, ha, h.2]
      · have hba : isAbove (some b) a = true := by simp only [isAbove, decide_eq_true_eq]; omega
        simp [Memory.wfAbove, h.1.1, h.1.2, ih h.2 hba]

/-- Every write to a cell of the display keeps the canonical form. -/
theorem wf_write {m : Memory} {a : Nat} (v : Byte) (h : m.wf = true) (ha : a < Config.displayCells) :
    (m.write a v).wf = true :=
  wfAbove_write v h rfl ha

theorem wf_nil : Memory.wf [] = true := rfl

end Sys2Proof.Machine
end

