-- ==== Sys2Proof/Laws/State.lean ====
section
/-! SUPPORT. What each named update of the state leaves in each field, so that no proof unfolds an update of the record. -/

namespace Sys2Proof.Machine

variable (s : State)

/-! ### `setLatch` -/

@[simp] theorem setLatch_stbQ (p : Pin) (v : Bool) : (s.setLatch p v).stbQ = if p = .stb then v else s.stbQ := by cases p <;> rfl
@[simp] theorem setLatch_clkQ (p : Pin) (v : Bool) : (s.setLatch p v).clkQ = if p = .clk then v else s.clkQ := by cases p <;> rfl
@[simp] theorem setLatch_dioQ (p : Pin) (v : Bool) : (s.setLatch p v).dioQ = if p = .dio then v else s.dioQ := by cases p <;> rfl
@[simp] theorem setLatch_stbOe (p : Pin) (v : Bool) : (s.setLatch p v).stbOe = s.stbOe := by cases p <;> rfl
@[simp] theorem setLatch_clkOe (p : Pin) (v : Bool) : (s.setLatch p v).clkOe = s.clkOe := by cases p <;> rfl
@[simp] theorem setLatch_dioOe (p : Pin) (v : Bool) : (s.setLatch p v).dioOe = s.dioOe := by cases p <;> rfl
@[simp] theorem setLatch_keybuf (p : Pin) (v : Bool) : (s.setLatch p v).keybuf = s.keybuf := by cases p <;> rfl
@[simp] theorem setLatch_acc (p : Pin) (v : Bool) : (s.setLatch p v).acc = s.acc := by cases p <;> rfl
@[simp] theorem setLatch_illegal (p : Pin) (v : Bool) : (s.setLatch p v).illegal = s.illegal := by cases p <;> rfl
@[simp] theorem setLatch_busy (p : Pin) (v : Bool) : (s.setLatch p v).busy = s.busy := by cases p <;> rfl
@[simp] theorem setLatch_curOp (p : Pin) (v : Bool) : (s.setLatch p v).curOp = s.curOp := by cases p <;> rfl
@[simp] theorem setLatch_argQ (p : Pin) (v : Bool) : (s.setLatch p v).argQ = s.argQ := by cases p <;> rfl
@[simp] theorem setLatch_idx (p : Pin) (v : Bool) : (s.setLatch p v).idx = s.idx := by cases p <;> rfl
@[simp] theorem setLatch_dly (p : Pin) (v : Bool) : (s.setLatch p v).dly = s.dly := by cases p <;> rfl
@[simp] theorem setLatch_sync (p : Pin) (v : Bool) : (s.setLatch p v).sync = s.sync := by cases p <;> rfl
@[simp] theorem setLatch_viol (p : Pin) (v : Bool) : (s.setLatch p v).viol = s.viol := by cases p <;> rfl
@[simp] theorem setLatch_ev (p : Pin) (v : Bool) : (s.setLatch p v).ev = s.ev := by cases p <;> rfl
@[simp] theorem setLatch_peer (p : Pin) (v : Bool) : (s.setLatch p v).peer = s.peer := by cases p <;> rfl
@[simp] theorem setLatch_serialIn (p : Pin) (v : Bool) : (s.setLatch p v).serialIn = s.serialIn := by cases p <;> rfl
@[simp] theorem setLatch_port (p : Pin) (v : Bool) : (s.setLatch p v).port = s.port := by cases p <;> rfl
@[simp] theorem setLatch_rstPlan (p : Pin) (v : Bool) : (s.setLatch p v).rstPlan = s.rstPlan := by cases p <;> rfl
@[simp] theorem setLatch_dioPlan (p : Pin) (v : Bool) : (s.setLatch p v).dioPlan = s.dioPlan := by cases p <;> rfl
@[simp] theorem setLatch_draws (p : Pin) (v : Bool) : (s.setLatch p v).draws = s.draws := by cases p <;> rfl

/-! ### `setOe` -/

@[simp] theorem setOe_stbQ (S : PinSet) (d : Bool) : (s.setOe S d).stbQ = s.stbQ := rfl
@[simp] theorem setOe_clkQ (S : PinSet) (d : Bool) : (s.setOe S d).clkQ = s.clkQ := rfl
@[simp] theorem setOe_dioQ (S : PinSet) (d : Bool) : (s.setOe S d).dioQ = s.dioQ := rfl
@[simp] theorem setOe_stbOe (S : PinSet) (d : Bool) : (s.setOe S d).stbOe = if S.stb then d else s.stbOe := rfl
@[simp] theorem setOe_clkOe (S : PinSet) (d : Bool) : (s.setOe S d).clkOe = if S.clk then d else s.clkOe := rfl
@[simp] theorem setOe_dioOe (S : PinSet) (d : Bool) : (s.setOe S d).dioOe = if S.dio then d else s.dioOe := rfl
@[simp] theorem setOe_keybuf (S : PinSet) (d : Bool) : (s.setOe S d).keybuf = s.keybuf := rfl
@[simp] theorem setOe_acc (S : PinSet) (d : Bool) : (s.setOe S d).acc = s.acc := rfl
@[simp] theorem setOe_illegal (S : PinSet) (d : Bool) : (s.setOe S d).illegal = s.illegal := rfl
@[simp] theorem setOe_busy (S : PinSet) (d : Bool) : (s.setOe S d).busy = s.busy := rfl
@[simp] theorem setOe_curOp (S : PinSet) (d : Bool) : (s.setOe S d).curOp = s.curOp := rfl
@[simp] theorem setOe_argQ (S : PinSet) (d : Bool) : (s.setOe S d).argQ = s.argQ := rfl
@[simp] theorem setOe_idx (S : PinSet) (d : Bool) : (s.setOe S d).idx = s.idx := rfl
@[simp] theorem setOe_dly (S : PinSet) (d : Bool) : (s.setOe S d).dly = s.dly := rfl
@[simp] theorem setOe_sync (S : PinSet) (d : Bool) : (s.setOe S d).sync = s.sync := rfl
@[simp] theorem setOe_viol (S : PinSet) (d : Bool) : (s.setOe S d).viol = s.viol := rfl
@[simp] theorem setOe_ev (S : PinSet) (d : Bool) : (s.setOe S d).ev = s.ev := rfl
@[simp] theorem setOe_peer (S : PinSet) (d : Bool) : (s.setOe S d).peer = s.peer := rfl
@[simp] theorem setOe_serialIn (S : PinSet) (d : Bool) : (s.setOe S d).serialIn = s.serialIn := rfl
@[simp] theorem setOe_port (S : PinSet) (d : Bool) : (s.setOe S d).port = s.port := rfl
@[simp] theorem setOe_rstPlan (S : PinSet) (d : Bool) : (s.setOe S d).rstPlan = s.rstPlan := rfl
@[simp] theorem setOe_dioPlan (S : PinSet) (d : Bool) : (s.setOe S d).dioPlan = s.dioPlan := rfl
@[simp] theorem setOe_draws (S : PinSet) (d : Bool) : (s.setOe S d).draws = s.draws := rfl

/-! ### `emit` -/

@[simp] theorem emit_stbQ (e : Event) : (s.emit e).stbQ = s.stbQ := rfl
@[simp] theorem emit_clkQ (e : Event) : (s.emit e).clkQ = s.clkQ := rfl
@[simp] theorem emit_dioQ (e : Event) : (s.emit e).dioQ = s.dioQ := rfl
@[simp] theorem emit_stbOe (e : Event) : (s.emit e).stbOe = s.stbOe := rfl
@[simp] theorem emit_clkOe (e : Event) : (s.emit e).clkOe = s.clkOe := rfl
@[simp] theorem emit_dioOe (e : Event) : (s.emit e).dioOe = s.dioOe := rfl
@[simp] theorem emit_keybuf (e : Event) : (s.emit e).keybuf = s.keybuf := rfl
@[simp] theorem emit_acc (e : Event) : (s.emit e).acc = s.acc := rfl
@[simp] theorem emit_illegal (e : Event) : (s.emit e).illegal = s.illegal := rfl
@[simp] theorem emit_busy (e : Event) : (s.emit e).busy = s.busy := rfl
@[simp] theorem emit_curOp (e : Event) : (s.emit e).curOp = s.curOp := rfl
@[simp] theorem emit_argQ (e : Event) : (s.emit e).argQ = s.argQ := rfl
@[simp] theorem emit_idx (e : Event) : (s.emit e).idx = s.idx := rfl
@[simp] theorem emit_dly (e : Event) : (s.emit e).dly = s.dly := rfl
@[simp] theorem emit_sync (e : Event) : (s.emit e).sync = s.sync := rfl
@[simp] theorem emit_viol (e : Event) : (s.emit e).viol = s.viol := rfl
@[simp] theorem emit_ev (e : Event) : (s.emit e).ev = s.ev ++ [e] := rfl
@[simp] theorem emit_peer (e : Event) : (s.emit e).peer = s.peer := rfl
@[simp] theorem emit_serialIn (e : Event) : (s.emit e).serialIn = s.serialIn := rfl
@[simp] theorem emit_port (e : Event) : (s.emit e).port = s.port := rfl
@[simp] theorem emit_rstPlan (e : Event) : (s.emit e).rstPlan = s.rstPlan := rfl
@[simp] theorem emit_dioPlan (e : Event) : (s.emit e).dioPlan = s.dioPlan := rfl
@[simp] theorem emit_draws (e : Event) : (s.emit e).draws = s.draws := rfl

/-! ### `mark` -/

@[simp] theorem mark_stbQ (k : Violation) : (s.mark k).stbQ = s.stbQ := rfl
@[simp] theorem mark_clkQ (k : Violation) : (s.mark k).clkQ = s.clkQ := rfl
@[simp] theorem mark_dioQ (k : Violation) : (s.mark k).dioQ = s.dioQ := rfl
@[simp] theorem mark_stbOe (k : Violation) : (s.mark k).stbOe = s.stbOe := rfl
@[simp] theorem mark_clkOe (k : Violation) : (s.mark k).clkOe = s.clkOe := rfl
@[simp] theorem mark_dioOe (k : Violation) : (s.mark k).dioOe = s.dioOe := rfl
@[simp] theorem mark_keybuf (k : Violation) : (s.mark k).keybuf = s.keybuf := rfl
@[simp] theorem mark_acc (k : Violation) : (s.mark k).acc = s.acc := rfl
@[simp] theorem mark_illegal (k : Violation) : (s.mark k).illegal = s.illegal := rfl
@[simp] theorem mark_busy (k : Violation) : (s.mark k).busy = s.busy := rfl
@[simp] theorem mark_curOp (k : Violation) : (s.mark k).curOp = s.curOp := rfl
@[simp] theorem mark_argQ (k : Violation) : (s.mark k).argQ = s.argQ := rfl
@[simp] theorem mark_idx (k : Violation) : (s.mark k).idx = s.idx := rfl
@[simp] theorem mark_dly (k : Violation) : (s.mark k).dly = s.dly := rfl
@[simp] theorem mark_sync (k : Violation) : (s.mark k).sync = s.sync := rfl
@[simp] theorem mark_viol (k : Violation) : (s.mark k).viol = s.viol.add k := rfl
@[simp] theorem mark_ev (k : Violation) : (s.mark k).ev = s.ev := rfl
@[simp] theorem mark_peer (k : Violation) : (s.mark k).peer = .undefined := rfl
@[simp] theorem mark_serialIn (k : Violation) : (s.mark k).serialIn = s.serialIn := rfl
@[simp] theorem mark_port (k : Violation) : (s.mark k).port = s.port := rfl
@[simp] theorem mark_rstPlan (k : Violation) : (s.mark k).rstPlan = s.rstPlan := rfl
@[simp] theorem mark_dioPlan (k : Violation) : (s.mark k).dioPlan = s.dioPlan := rfl
@[simp] theorem mark_draws (k : Violation) : (s.mark k).draws = s.draws := rfl

/-! ### `markIf` -/

@[simp] theorem markIf_stbQ (c : Bool) (k : Violation) : (s.markIf c k).stbQ = s.stbQ := by cases c <;> rfl
@[simp] theorem markIf_clkQ (c : Bool) (k : Violation) : (s.markIf c k).clkQ = s.clkQ := by cases c <;> rfl
@[simp] theorem markIf_dioQ (c : Bool) (k : Violation) : (s.markIf c k).dioQ = s.dioQ := by cases c <;> rfl
@[simp] theorem markIf_stbOe (c : Bool) (k : Violation) : (s.markIf c k).stbOe = s.stbOe := by cases c <;> rfl
@[simp] theorem markIf_clkOe (c : Bool) (k : Violation) : (s.markIf c k).clkOe = s.clkOe := by cases c <;> rfl
@[simp] theorem markIf_dioOe (c : Bool) (k : Violation) : (s.markIf c k).dioOe = s.dioOe := by cases c <;> rfl
@[simp] theorem markIf_keybuf (c : Bool) (k : Violation) : (s.markIf c k).keybuf = s.keybuf := by cases c <;> rfl
@[simp] theorem markIf_acc (c : Bool) (k : Violation) : (s.markIf c k).acc = s.acc := by cases c <;> rfl
@[simp] theorem markIf_illegal (c : Bool) (k : Violation) : (s.markIf c k).illegal = s.illegal := by cases c <;> rfl
@[simp] theorem markIf_busy (c : Bool) (k : Violation) : (s.markIf c k).busy = s.busy := by cases c <;> rfl
@[simp] theorem markIf_curOp (c : Bool) (k : Violation) : (s.markIf c k).curOp = s.curOp := by cases c <;> rfl
@[simp] theorem markIf_argQ (c : Bool) (k : Violation) : (s.markIf c k).argQ = s.argQ := by cases c <;> rfl
@[simp] theorem markIf_idx (c : Bool) (k : Violation) : (s.markIf c k).idx = s.idx := by cases c <;> rfl
@[simp] theorem markIf_dly (c : Bool) (k : Violation) : (s.markIf c k).dly = s.dly := by cases c <;> rfl
@[simp] theorem markIf_sync (c : Bool) (k : Violation) : (s.markIf c k).sync = s.sync := by cases c <;> rfl
@[simp] theorem markIf_viol (c : Bool) (k : Violation) : (s.markIf c k).viol = if c then s.viol.add k else s.viol := by cases c <;> rfl
@[simp] theorem markIf_ev (c : Bool) (k : Violation) : (s.markIf c k).ev = s.ev := by cases c <;> rfl
@[simp] theorem markIf_peer (c : Bool) (k : Violation) : (s.markIf c k).peer = if c then .undefined else s.peer := by cases c <;> rfl
@[simp] theorem markIf_serialIn (c : Bool) (k : Violation) : (s.markIf c k).serialIn = s.serialIn := by cases c <;> rfl
@[simp] theorem markIf_port (c : Bool) (k : Violation) : (s.markIf c k).port = s.port := by cases c <;> rfl
@[simp] theorem markIf_rstPlan (c : Bool) (k : Violation) : (s.markIf c k).rstPlan = s.rstPlan := by cases c <;> rfl
@[simp] theorem markIf_dioPlan (c : Bool) (k : Violation) : (s.markIf c k).dioPlan = s.dioPlan := by cases c <;> rfl
@[simp] theorem markIf_draws (c : Bool) (k : Violation) : (s.markIf c k).draws = s.draws := by cases c <;> rfl

/-! ### `afterDraw` -/

@[simp] theorem afterDraw_stbQ : (s.afterDraw).stbQ = s.stbQ := rfl
@[simp] theorem afterDraw_clkQ : (s.afterDraw).clkQ = s.clkQ := rfl
@[simp] theorem afterDraw_dioQ : (s.afterDraw).dioQ = s.dioQ := rfl
@[simp] theorem afterDraw_stbOe : (s.afterDraw).stbOe = s.stbOe := rfl
@[simp] theorem afterDraw_clkOe : (s.afterDraw).clkOe = s.clkOe := rfl
@[simp] theorem afterDraw_dioOe : (s.afterDraw).dioOe = s.dioOe := rfl
@[simp] theorem afterDraw_keybuf : (s.afterDraw).keybuf = s.keybuf := rfl
@[simp] theorem afterDraw_acc : (s.afterDraw).acc = s.acc := rfl
@[simp] theorem afterDraw_illegal : (s.afterDraw).illegal = s.illegal := rfl
@[simp] theorem afterDraw_busy : (s.afterDraw).busy = s.busy := rfl
@[simp] theorem afterDraw_curOp : (s.afterDraw).curOp = s.curOp := rfl
@[simp] theorem afterDraw_argQ : (s.afterDraw).argQ = s.argQ := rfl
@[simp] theorem afterDraw_idx : (s.afterDraw).idx = s.idx := rfl
@[simp] theorem afterDraw_dly : (s.afterDraw).dly = s.dly := rfl
@[simp] theorem afterDraw_sync : (s.afterDraw).sync = s.sync := rfl
@[simp] theorem afterDraw_viol : (s.afterDraw).viol = s.viol := rfl
@[simp] theorem afterDraw_ev : (s.afterDraw).ev = s.ev := rfl
@[simp] theorem afterDraw_peer : (s.afterDraw).peer = s.peer := rfl
@[simp] theorem afterDraw_serialIn : (s.afterDraw).serialIn = s.serialIn := rfl
@[simp] theorem afterDraw_port : (s.afterDraw).port = s.port := rfl
@[simp] theorem afterDraw_rstPlan : (s.afterDraw).rstPlan = s.rstPlan := rfl
@[simp] theorem afterDraw_dioPlan : (s.afterDraw).dioPlan = s.dioPlan.tail := rfl
@[simp] theorem afterDraw_draws : (s.afterDraw).draws = s.draws + 1 := rfl

/-! ### `afterRstLevel` -/

@[simp] theorem afterRstLevel_stbQ : (s.afterRstLevel).stbQ = s.stbQ := rfl
@[simp] theorem afterRstLevel_clkQ : (s.afterRstLevel).clkQ = s.clkQ := rfl
@[simp] theorem afterRstLevel_dioQ : (s.afterRstLevel).dioQ = s.dioQ := rfl
@[simp] theorem afterRstLevel_stbOe : (s.afterRstLevel).stbOe = s.stbOe := rfl
@[simp] theorem afterRstLevel_clkOe : (s.afterRstLevel).clkOe = s.clkOe := rfl
@[simp] theorem afterRstLevel_dioOe : (s.afterRstLevel).dioOe = s.dioOe := rfl
@[simp] theorem afterRstLevel_keybuf : (s.afterRstLevel).keybuf = s.keybuf := rfl
@[simp] theorem afterRstLevel_acc : (s.afterRstLevel).acc = s.acc := rfl
@[simp] theorem afterRstLevel_illegal : (s.afterRstLevel).illegal = s.illegal := rfl
@[simp] theorem afterRstLevel_busy : (s.afterRstLevel).busy = s.busy := rfl
@[simp] theorem afterRstLevel_curOp : (s.afterRstLevel).curOp = s.curOp := rfl
@[simp] theorem afterRstLevel_argQ : (s.afterRstLevel).argQ = s.argQ := rfl
@[simp] theorem afterRstLevel_idx : (s.afterRstLevel).idx = s.idx := rfl
@[simp] theorem afterRstLevel_dly : (s.afterRstLevel).dly = s.dly := rfl
@[simp] theorem afterRstLevel_sync : (s.afterRstLevel).sync = s.sync := rfl
@[simp] theorem afterRstLevel_viol : (s.afterRstLevel).viol = s.viol := rfl
@[simp] theorem afterRstLevel_ev : (s.afterRstLevel).ev = s.ev := rfl
@[simp] theorem afterRstLevel_peer : (s.afterRstLevel).peer = s.peer := rfl
@[simp] theorem afterRstLevel_serialIn : (s.afterRstLevel).serialIn = s.serialIn := rfl
@[simp] theorem afterRstLevel_port : (s.afterRstLevel).port = s.port := rfl
@[simp] theorem afterRstLevel_rstPlan : (s.afterRstLevel).rstPlan = s.rstPlan.tail := rfl
@[simp] theorem afterRstLevel_dioPlan : (s.afterRstLevel).dioPlan = s.dioPlan := rfl
@[simp] theorem afterRstLevel_draws : (s.afterRstLevel).draws = s.draws := rfl

/-! ### `advance` -/

@[simp] theorem advance_stbQ : (advance s).stbQ = s.stbQ := rfl
@[simp] theorem advance_clkQ : (advance s).clkQ = s.clkQ := rfl
@[simp] theorem advance_dioQ : (advance s).dioQ = s.dioQ := rfl
@[simp] theorem advance_stbOe : (advance s).stbOe = s.stbOe := rfl
@[simp] theorem advance_clkOe : (advance s).clkOe = s.clkOe := rfl
@[simp] theorem advance_dioOe : (advance s).dioOe = s.dioOe := rfl
@[simp] theorem advance_keybuf : (advance s).keybuf = s.keybuf := rfl
@[simp] theorem advance_acc : (advance s).acc = s.acc := rfl
@[simp] theorem advance_illegal : (advance s).illegal = s.illegal := rfl
@[simp] theorem advance_busy : (advance s).busy = (s.idx.toNat + 1 != s.trace.length) := rfl
@[simp] theorem advance_curOp : (advance s).curOp = s.curOp := rfl
@[simp] theorem advance_argQ : (advance s).argQ = s.argQ := rfl
@[simp] theorem advance_idx : (advance s).idx = s.idx + 1 := rfl
@[simp] theorem advance_dly : (advance s).dly = s.dly := rfl
@[simp] theorem advance_sync : (advance s).sync = s.sync := rfl
@[simp] theorem advance_viol : (advance s).viol = s.viol := rfl
@[simp] theorem advance_ev : (advance s).ev = s.ev := rfl
@[simp] theorem advance_peer : (advance s).peer = s.peer := rfl
@[simp] theorem advance_serialIn : (advance s).serialIn = s.serialIn := rfl
@[simp] theorem advance_port : (advance s).port = s.port := rfl
@[simp] theorem advance_rstPlan : (advance s).rstPlan = s.rstPlan := rfl
@[simp] theorem advance_dioPlan : (advance s).dioPlan = s.dioPlan := rfl
@[simp] theorem advance_draws : (advance s).draws = s.draws := rfl

/-! ### `onPeer` -/

@[simp] theorem onPeer_stbQ (f : PeerRegs → PeerRegs) : (s.onPeer f).stbQ = s.stbQ := by unfold State.onPeer; cases s.peer <;> rfl
@[simp] theorem onPeer_clkQ (f : PeerRegs → PeerRegs) : (s.onPeer f).clkQ = s.clkQ := by unfold State.onPeer; cases s.peer <;> rfl
@[simp] theorem onPeer_dioQ (f : PeerRegs → PeerRegs) : (s.onPeer f).dioQ = s.dioQ := by unfold State.onPeer; cases s.peer <;> rfl
@[simp] theorem onPeer_stbOe (f : PeerRegs → PeerRegs) : (s.onPeer f).stbOe = s.stbOe := by unfold State.onPeer; cases s.peer <;> rfl
@[simp] theorem onPeer_clkOe (f : PeerRegs → PeerRegs) : (s.onPeer f).clkOe = s.clkOe := by unfold State.onPeer; cases s.peer <;> rfl
@[simp] theorem onPeer_dioOe (f : PeerRegs → PeerRegs) : (s.onPeer f).dioOe = s.dioOe := by unfold State.onPeer; cases s.peer <;> rfl
@[simp] theorem onPeer_keybuf (f : PeerRegs → PeerRegs) : (s.onPeer f).keybuf = s.keybuf := by unfold State.onPeer; cases s.peer <;> rfl
@[simp] theorem onPeer_acc (f : PeerRegs → PeerRegs) : (s.onPeer f).acc = s.acc := by unfold State.onPeer; cases s.peer <;> rfl
@[simp] theorem onPeer_illegal (f : PeerRegs → PeerRegs) : (s.onPeer f).illegal = s.illegal := by unfold State.onPeer; cases s.peer <;> rfl
@[simp] theorem onPeer_busy (f : PeerRegs → PeerRegs) : (s.onPeer f).busy = s.busy := by unfold State.onPeer; cases s.peer <;> rfl
@[simp] theorem onPeer_curOp (f : PeerRegs → PeerRegs) : (s.onPeer f).curOp = s.curOp := by unfold State.onPeer; cases s.peer <;> rfl
@[simp] theorem onPeer_argQ (f : PeerRegs → PeerRegs) : (s.onPeer f).argQ = s.argQ := by unfold State.onPeer; cases s.peer <;> rfl
@[simp] theorem onPeer_idx (f : PeerRegs → PeerRegs) : (s.onPeer f).idx = s.idx := by unfold State.onPeer; cases s.peer <;> rfl
@[simp] theorem onPeer_dly (f : PeerRegs → PeerRegs) : (s.onPeer f).dly = s.dly := by unfold State.onPeer; cases s.peer <;> rfl
@[simp] theorem onPeer_sync (f : PeerRegs → PeerRegs) : (s.onPeer f).sync = s.sync := by unfold State.onPeer; cases s.peer <;> rfl
@[simp] theorem onPeer_viol (f : PeerRegs → PeerRegs) : (s.onPeer f).viol = s.viol := by unfold State.onPeer; cases s.peer <;> rfl
@[simp] theorem onPeer_ev (f : PeerRegs → PeerRegs) : (s.onPeer f).ev = s.ev := by unfold State.onPeer; cases s.peer <;> rfl
@[simp] theorem onPeer_serialIn (f : PeerRegs → PeerRegs) : (s.onPeer f).serialIn = s.serialIn := by unfold State.onPeer; cases s.peer <;> rfl
@[simp] theorem onPeer_port (f : PeerRegs → PeerRegs) : (s.onPeer f).port = s.port := by unfold State.onPeer; cases s.peer <;> rfl
@[simp] theorem onPeer_rstPlan (f : PeerRegs → PeerRegs) : (s.onPeer f).rstPlan = s.rstPlan := by unfold State.onPeer; cases s.peer <;> rfl
@[simp] theorem onPeer_dioPlan (f : PeerRegs → PeerRegs) : (s.onPeer f).dioPlan = s.dioPlan := by unfold State.onPeer; cases s.peer <;> rfl
@[simp] theorem onPeer_draws (f : PeerRegs → PeerRegs) : (s.onPeer f).draws = s.draws := by unfold State.onPeer; cases s.peer <;> rfl

/-! ### The peer's registers under `onPeer` -/

theorem onPeer_known (f : PeerRegs → PeerRegs) (r : PeerRegs) (h : s.peer = .known r) :
    s.onPeer f = { s with peer := .known (f r) } := by
  simp only [State.onPeer, h]

theorem onPeer_undefined (f : PeerRegs → PeerRegs) (h : s.peer = .undefined) : s.onPeer f = s := by
  simp only [State.onPeer, h]

end Sys2Proof.Machine
end

