-- ==== Sys2Proof/Laws/Ops.lean ====
section
/-! SUPPORT. One lemma per shared operation: what each micro-operation, the acceptance of a word, a rejection and a reset can do to the state. -/

namespace Sys2Proof.Machine

/-! ### `withoutPeer` -/

/-- Two states agree but for the peer exactly when one is the other with its peer exchanged. -/
theorem withoutPeer_eq_iff (s t : State) :
    s.withoutPeer = t.withoutPeer ↔ s = { t with peer := s.peer, serialIn := s.serialIn } := by
  constructor
  · intro h
    cases s
    cases t
    simp only [State.withoutPeer, State.mk.injEq] at h ⊢
    tauto
  · intro h
    rw [h]
    rfl

@[simp] theorem withoutPeer_withoutPeer (s : State) : s.withoutPeer.withoutPeer = s.withoutPeer := rfl

theorem withoutPeer_exchange (s : State) (p : Peer) (x : Option Byte) :
    { s with peer := p, serialIn := x }.withoutPeer = s.withoutPeer := rfl

/-! ### Micro-operations -/

/-- A micro-operation does to the block the same whatever the peer is (41_send_byte.md R129). -/
theorem performBlock_exchange (m : MicroOp) (s : State) (p : Peer) (x : Option Byte) :
    performBlock m { s with peer := p, serialIn := x } = { performBlock m s with peer := p, serialIn := x } := by
  cases m with
  | setPin q v => cases q <;> rfl
  | setDir S d => rfl
  | wait => rfl
  | sample j => rfl
  | store k => rfl

theorem performBlock_withoutPeer (m : MicroOp) (s : State) :
    (performBlock m s).withoutPeer = performBlock m s.withoutPeer :=
  (performBlock_exchange m s .undefined none).symm

/-- The fields no micro-operation writes. -/
theorem performBlock_frame (m : MicroOp) (s : State) :
    (performBlock m s).illegal = s.illegal ∧ (performBlock m s).busy = s.busy ∧
      (performBlock m s).curOp = s.curOp ∧ (performBlock m s).argQ = s.argQ ∧ (performBlock m s).idx = s.idx ∧
      (performBlock m s).dly = s.dly ∧ (performBlock m s).sync = s.sync ∧ (performBlock m s).viol = s.viol ∧
      (performBlock m s).peer = s.peer ∧ (performBlock m s).serialIn = s.serialIn ∧
      (performBlock m s).port = s.port ∧ (performBlock m s).rstPlan = s.rstPlan := by
  cases m with
  | setPin q v => cases q <;> exact ⟨rfl, rfl, rfl, rfl, rfl, rfl, rfl, rfl, rfl, rfl, rfl, rfl⟩
  | setDir S d => exact ⟨rfl, rfl, rfl, rfl, rfl, rfl, rfl, rfl, rfl, rfl, rfl, rfl⟩
  | wait => exact ⟨rfl, rfl, rfl, rfl, rfl, rfl, rfl, rfl, rfl, rfl, rfl, rfl⟩
  | sample j => exact ⟨rfl, rfl, rfl, rfl, rfl, rfl, rfl, rfl, rfl, rfl, rfl, rfl⟩
  | store k => exact ⟨rfl, rfl, rfl, rfl, rfl, rfl, rfl, rfl, rfl, rfl, rfl, rfl⟩

/-- Strobe after a micro-operation. -/
theorem performBlock_stbQ (m : MicroOp) (s : State) : (performBlock m s).stbQ = stbAfterMicro s.stbQ m := by
  cases m with
  | setPin q v => cases q <;> rfl
  | setDir S d => rfl
  | wait => rfl
  | sample j => rfl
  | store k => rfl

/-- Clock after a micro-operation. -/
theorem performBlock_clkQ (m : MicroOp) (s : State) : (performBlock m s).clkQ = clkAfterMicro s.clkQ m := by
  cases m with
  | setPin q v => cases q <;> rfl
  | setDir S d => rfl
  | wait => rfl
  | sample j => rfl
  | store k => rfl

/-- Directions after a micro-operation (40_pin_control.md R113). -/
theorem performBlock_oes (m : MicroOp) (s : State) : (performBlock m s).oes = oeAfterMicro s.oes m := by
  cases m with
  | setPin q v => cases q <;> rfl
  | setDir S d => rfl
  | wait => rfl
  | sample j => rfl
  | store k => rfl

/-- Only a `Store` writes the key buffer (10_state.md R39). -/
theorem performBlock_keybuf (m : MicroOp) (s : State) :
    (performBlock m s).keybuf = match m with | .store k => s.keybuf.set k.val s.acc | _ => s.keybuf := by
  cases m with
  | setPin q v => cases q <;> rfl
  | setDir S d => rfl
  | wait => rfl
  | sample j => rfl
  | store k => rfl

/-- Every micro-operation appends one event (R55). -/
theorem performBlock_ev (m : MicroOp) (s : State) : ∃ e, (performBlock m s).ev = s.ev ++ [e] := by
  cases m with
  | setPin q v => cases q <;> exact ⟨_, rfl⟩
  | setDir S d => exact ⟨_, rfl⟩
  | wait => exact ⟨_, rfl⟩
  | sample j => exact ⟨_, rfl⟩
  | store k => exact ⟨_, rfl⟩

/-! ### Acceptance (R48, R172) -/

/-- The marks an acceptance adds (60_exceptions.md R172). -/
theorem checkViolations_viol (op : Op) (s : State) :
    (checkViolations op s).viol =
      { unconfigured := s.viol.unconfigured || (decide (op ≠ .configure) && !s.stbOe)
        nestedOpen := s.viol.nestedOpen || (opensTransaction op && !s.stbQ)
        closeIdle := s.viol.closeIdle || (decide (op = .closeTxn) && s.stbQ)
        sendIdle := s.viol.sendIdle || (decide (op = .sendByte) && s.stbQ)
        resetAbort := s.viol.resetAbort } := by
  have h : ∀ v : ViolSet, v = ⟨v.unconfigured, v.nestedOpen, v.closeIdle, v.sendIdle, v.resetAbort⟩ := fun _ => rfl
  unfold checkViolations
  simp only [markIf_viol]
  cases op <;> cases s.stbOe <;> cases s.stbQ <;> rw [h s.viol] <;>
    simp [opensTransaction, ViolSet.add]

/-- Checking violations writes the marks and the peer, nothing else. -/
theorem checkViolations_frame (op : Op) (s : State) :
    checkViolations op s = { s with viol := (checkViolations op s).viol, peer := (checkViolations op s).peer } := by
  have h : ∀ (c : Bool) (k : Violation) (t : State),
      t.markIf c k = { t with viol := (t.markIf c k).viol, peer := (t.markIf c k).peer } := by
    intro c k t
    cases c <;> rfl
  unfold checkViolations
  rw [h, h, h, h]

/-- Where no mark is added the state is as before; where one is, the peer is undefined (R191). -/
theorem checkViolations_peer (op : Op) (s : State) :
    (checkViolations op s).peer = s.peer ∧ (checkViolations op s).viol = s.viol ∨
      (checkViolations op s).peer = .undefined ∧ (checkViolations op s).viol ≠ ViolSet.empty := by
  have h : ∀ (c : Bool) (k : Violation) (t : State) (b : State),
      (t.peer = b.peer ∧ t.viol = b.viol ∨ t.peer = .undefined ∧ t.viol ≠ ViolSet.empty) →
      ((t.markIf c k).peer = b.peer ∧ (t.markIf c k).viol = b.viol ∨
        (t.markIf c k).peer = .undefined ∧ (t.markIf c k).viol ≠ ViolSet.empty) := by
    intro c k t b hb
    cases c with
    | false => exact hb
    | true =>
      refine .inr ⟨rfl, ?_⟩
      cases k <;> simp [State.markIf, State.mark, ViolSet.add, ViolSet.empty]
  exact h _ _ _ _ (h _ _ _ _ (h _ _ _ _ (h _ _ _ _ (.inl ⟨rfl, rfl⟩))))

/-- What an acceptance leaves but for the peer (R48). -/
theorem accept_withoutPeer (op : Op) (arg : Byte) (s : State) :
    (accept op arg s).withoutPeer =
      { s with
        viol := (checkViolations op s).viol
        illegal := false
        curOp := op.code
        argQ := arg
        idx := 0
        busy := true }.withoutPeer := by
  unfold accept
  rw [checkViolations_frame]
  rfl

@[simp] theorem accept_serialIn (op : Op) (arg : Byte) (s : State) : (accept op arg s).serialIn = s.serialIn := by
  unfold accept
  rw [checkViolations_frame]

@[simp] theorem accept_stbQ (op : Op) (arg : Byte) (s : State) : (accept op arg s).stbQ = s.stbQ := by
  unfold accept
  rw [checkViolations_frame]

@[simp] theorem accept_clkQ (op : Op) (arg : Byte) (s : State) : (accept op arg s).clkQ = s.clkQ := by
  unfold accept
  rw [checkViolations_frame]

@[simp] theorem accept_dioQ (op : Op) (arg : Byte) (s : State) : (accept op arg s).dioQ = s.dioQ := by
  unfold accept
  rw [checkViolations_frame]

@[simp] theorem accept_stbOe (op : Op) (arg : Byte) (s : State) : (accept op arg s).stbOe = s.stbOe := by
  unfold accept
  rw [checkViolations_frame]

@[simp] theorem accept_clkOe (op : Op) (arg : Byte) (s : State) : (accept op arg s).clkOe = s.clkOe := by
  unfold accept
  rw [checkViolations_frame]

@[simp] theorem accept_dioOe (op : Op) (arg : Byte) (s : State) : (accept op arg s).dioOe = s.dioOe := by
  unfold accept
  rw [checkViolations_frame]

@[simp] theorem accept_keybuf (op : Op) (arg : Byte) (s : State) : (accept op arg s).keybuf = s.keybuf := by
  unfold accept
  rw [checkViolations_frame]

@[simp] theorem accept_acc (op : Op) (arg : Byte) (s : State) : (accept op arg s).acc = s.acc := by
  unfold accept
  rw [checkViolations_frame]

@[simp] theorem accept_dly (op : Op) (arg : Byte) (s : State) : (accept op arg s).dly = s.dly := by
  unfold accept
  rw [checkViolations_frame]

@[simp] theorem accept_sync (op : Op) (arg : Byte) (s : State) : (accept op arg s).sync = s.sync := by
  unfold accept
  rw [checkViolations_frame]

@[simp] theorem accept_ev (op : Op) (arg : Byte) (s : State) : (accept op arg s).ev = s.ev := by
  unfold accept
  rw [checkViolations_frame]

@[simp] theorem accept_port (op : Op) (arg : Byte) (s : State) : (accept op arg s).port = s.port := by
  unfold accept
  rw [checkViolations_frame]

@[simp] theorem accept_rstPlan (op : Op) (arg : Byte) (s : State) : (accept op arg s).rstPlan = s.rstPlan := by
  unfold accept
  rw [checkViolations_frame]

@[simp] theorem accept_dioPlan (op : Op) (arg : Byte) (s : State) : (accept op arg s).dioPlan = s.dioPlan := by
  unfold accept
  rw [checkViolations_frame]

@[simp] theorem accept_draws (op : Op) (arg : Byte) (s : State) : (accept op arg s).draws = s.draws := by
  unfold accept
  rw [checkViolations_frame]

@[simp] theorem accept_viol (op : Op) (arg : Byte) (s : State) : (accept op arg s).viol = (checkViolations op s).viol := rfl

@[simp] theorem accept_peer (op : Op) (arg : Byte) (s : State) : (accept op arg s).peer = (checkViolations op s).peer := rfl

@[simp] theorem accept_oes (op : Op) (arg : Byte) (s : State) : (accept op arg s).oes = s.oes := by
  simp only [State.oes, accept_stbOe, accept_clkOe, accept_dioOe]

@[simp] theorem accept_trace (op : Op) (arg : Byte) (s : State) : (accept op arg s).trace = traceOf op arg := by
  cases op <;> rfl

/-- An idle block accepts a legal word. -/
theorem takeCommand_idle (op : Op) (arg : Byte) {s : State} (h : s.busy = false) :
    takeCommand op arg s = .next (accept op arg s) := by
  simp [takeCommand, h]

/-- An idle block rejects an illegal word. -/
theorem takeIllegal_idle (w : Word) {s : State} (h : s.busy = false) :
    takeIllegal w s = .next (raiseIllegal w s) := by
  simp [takeIllegal, h]

/-- The meaning of a host operation is the acceptance of its word. -/
theorem exec_instr (op : Op) (arg : Byte) (s : State) :
    exec (op.instr arg) s = takeCommand op (if op.takesArg then arg else 0x00) s := by
  cases op <;> rfl

/-! ### Reset (70_reset_and_hazards.md R200 to R203) -/

/-- What a reset edge leaves but for the peer. -/
theorem resetEdge_withoutPeer (s : State) :
    (resetEdge s).withoutPeer =
      { State.reset with
        sync := s.sync
        viol := if s.busy || !s.stbQ then s.viol.add .resetAbort else s.viol
        ev := s.ev
        port := s.port
        rstPlan := s.rstPlan
        dioPlan := s.dioPlan
        draws := s.draws }.withoutPeer := by
  unfold resetEdge
  simp only [State.withoutPeer, markIf_sync, markIf_viol, markIf_ev, markIf_port, markIf_rstPlan, markIf_dioPlan,
    markIf_draws, State.reset]

end Sys2Proof.Machine
end

