-- ==== Sys2Proof/Laws/Peer.lean ====
section
/-! SUPPORT. The peer's operations: each writes the peer and its waiting command byte, nothing else; an undefined peer stays so; the display memory keeps its canonical form. -/

namespace Sys2Proof.Machine

/-! ### What the peer's operations can write -/

theorem takeByte_frame (v : Byte) (r : PeerRegs) (s : State) :
    takeByte v r s = { s with peer := (takeByte v r s).peer, serialIn := (takeByte v r s).serialIn } := by
  unfold takeByte
  cases r.phase <;> rfl

theorem takeBit_frame (b : Bool) (r : PeerRegs) (s : State) :
    takeBit b r s = { s with peer := (takeBit b r s).peer, serialIn := (takeBit b r s).serialIn } := by
  unfold takeBit
  split
  · exact takeByte_frame _ _ _
  · rfl

/-- What the peer sees of a wire change writes the peer and its waiting byte, nothing else. -/
theorem watch_frame (before after : State) :
    watch before after =
      { after with peer := (watch before after).peer, serialIn := (watch before after).serialIn } := by
  unfold watch
  split
  · rfl
  · split
    · rfl
    · split
      · rfl
      · split
        · exact takeBit_frame _ _ _
        · rfl

theorem watch_withoutPeer (before after : State) : (watch before after).withoutPeer = after.withoutPeer := by
  rw [watch_frame]
  rfl

/-- An undefined peer takes nothing from the wires (60_exceptions.md R191). -/
theorem watch_undefined (before : State) {after : State} (h : after.peer = .undefined) :
    watch before after = after := by
  simp only [watch, h]

/-- A bit that does not complete a byte. -/
theorem takeBit_more (b : Bool) {r : PeerRegs} (s : State) (h : r.bits.length ≠ 7) :
    takeBit b r s = { s with peer := .known { r with bits := r.bits ++ [b] } } := by
  unfold takeBit
  rw [if_neg]
  rw [List.length_append, List.length_singleton]
  omega

/-- The eighth bit completes a byte (R129). -/
theorem takeBit_last (b : Bool) {r : PeerRegs} (s : State) (h : r.bits.length = 7) :
    takeBit b r s = takeByte (byteOfBits (r.bits ++ [b])) { r with bits := [] } s := by
  unfold takeBit
  rw [if_pos]
  rw [List.length_append, List.length_singleton, h]

/-- What a clock that rises on the wire gives a known peer: the DIO level where strobe is low and the block drives DIO,
else nothing (R129). -/
theorem perform_clockRise {s : State} {r : PeerRegs} (hp : s.peer = .known r) (hc : s.wire .clk = .low) :
    perform (.setPin .clk true) s =
      if s.wire .stb = .low ∧ s.dioOe = true then takeBit s.dioQ r (setPin .clk true s) else setPin .clk true s := by
  have hoe : s.clkOe = true := by
    unfold State.wire at hc
    split at hc
    · assumption
    · cases hc
  have hrise : clockRose s (setPin .clk true s) = true := by
    have : (setPin .clk true s).wire .clk = .high := if_pos hoe
    rw [clockRose, hc, this]
    rfl
  have hst : (setPin .clk true s).wire .stb = s.wire .stb := rfl
  have hf : strobeFell s (setPin .clk true s) = false := by
    rw [strobeFell, hst]
    cases s.wire .stb <;> rfl
  have hr : strobeRose s (setPin .clk true s) = false := by
    rw [strobeRose, hst]
    cases s.wire .stb <;> rfl
  show watch s (setPin .clk true s) = _
  have hpu : (setPin .clk true s).peer = .known r := hp
  have hd : (setPin .clk true s).dioOe = s.dioOe := rfl
  have hq : (setPin .clk true s).dioQ = s.dioQ := rfl
  simp only [watch, hpu, hf, hr, hrise, hst, hd, hq, Bool.false_eq_true, if_false, Bool.true_and, Bool.and_eq_true,
    beq_iff_eq]

/-- A strobe that falls on the wire begins a transaction for a known peer (R129). -/
theorem perform_strobeFall {s : State} {r : PeerRegs} (hp : s.peer = .known r) (hs : s.wire .stb = .high) :
    perform (.setPin .stb false) s =
      { setPin .stb false s with peer := .known { r with phase := .selected, bits := [] } } := by
  have hoe : s.stbOe = true := by
    unfold State.wire at hs
    split at hs
    · assumption
    · cases hs
  have hf : strobeFell s (setPin .stb false s) = true := by
    have : (setPin .stb false s).wire .stb = .low := if_pos hoe
    rw [strobeFell, hs, this]
    rfl
  have hpu : (setPin .stb false s).peer = .known r := hp
  show watch s (setPin .stb false s) = _
  simp only [watch, hpu, hf, if_true]

/-- A strobe that rises on the wire ends it (R129). -/
theorem perform_strobeRise {s : State} {r : PeerRegs} (hp : s.peer = .known r) (hs : s.wire .stb = .low) :
    perform (.setPin .stb true) s =
      { setPin .stb true s with peer := .known { r with phase := .idle, bits := [] } } := by
  have hoe : s.stbOe = true := by
    unfold State.wire at hs
    split at hs
    · assumption
    · cases hs
  have hw : (setPin .stb true s).wire .stb = .high := if_pos hoe
  have hpu : (setPin .stb true s).peer = .known r := hp
  show watch s (setPin .stb true s) = _
  simp only [watch, hpu, strobeFell, strobeRose, hs, hw]
  rfl

/-- The four things a watching peer can do (41_send_byte.md R129). -/
theorem watch_cases (before after : State) :
    watch before after = after ∨
      ∃ r, after.peer = .known r ∧
        (watch before after = { after with peer := .known { r with phase := .selected, bits := [] } } ∨
          watch before after = { after with peer := .known { r with phase := .idle, bits := [] } } ∨
          watch before after = takeBit after.dioQ r after) := by
  unfold watch
  split
  · exact .inl rfl
  · next r hr =>
    split
    · exact .inr ⟨r, hr, .inl rfl⟩
    · split
      · exact .inr ⟨r, hr, .inr (.inl rfl)⟩
      · split
        · exact .inr ⟨r, hr, .inr (.inr rfl)⟩
        · exact .inl rfl

theorem perform_withoutPeer (m : MicroOp) (s : State) :
    (perform m s).withoutPeer = performBlock m s.withoutPeer := by
  unfold perform
  rw [watch_withoutPeer, performBlock_withoutPeer]

theorem onPeer_frame (f : PeerRegs → PeerRegs) (s : State) :
    s.onPeer f = { s with peer := (s.onPeer f).peer } := by
  unfold State.onPeer
  cases s.peer <;> rfl

theorem onPeer_withoutPeer (f : PeerRegs → PeerRegs) (s : State) : (s.onPeer f).withoutPeer = s.withoutPeer := by
  rw [onPeer_frame]
  rfl

/-! ### The display memory -/

/-- A data byte keeps the canonical form (20_memory.md R68, R69). -/
theorem dataByte_wf (n : Nat) (v : Byte) (r : PeerRegs) (h : r.cells.wf = true) : (dataByte n v r).cells.wf = true := by
  unfold dataByte
  split
  · split
    · next a _ => exact wf_write v h (Nat.lt_of_lt_of_le a.isLt (by decide))
    · exact h
  · exact wf_nil

theorem takeByte_memoryWf (v : Byte) (r : PeerRegs) (s : State) (h : r.cells.wf = true) :
    (takeByte v r s).memoryWf = true := by
  unfold takeByte
  cases r.phase with
  | selected => exact h
  | addressed n => exact dataByte_wf n v r h
  | idle => rfl
  | commanded => rfl
  | keyScan => rfl

/-- Whatever the peer takes from the wires keeps the canonical form. -/
theorem watch_memoryWf (before after : State) (h : after.memoryWf = true) : (watch before after).memoryWf = true := by
  rcases watch_cases before after with hw | ⟨r, hr, hw | hw | hw⟩
  · rw [hw]; exact h
  all_goals
    have hc : r.cells.wf = true := by simpa only [State.memoryWf, hr] using h
    rw [hw]
  · exact hc
  · exact hc
  · unfold takeBit
    split
    · exact takeByte_memoryWf _ _ _ hc
    · exact hc

end Sys2Proof.Machine
end

