-- ==== Sys2Proof/Laws/Step.lean ====
section
/-! SUPPORT. What a step can do, said once: the peer's turn, a busy block's step, an idle block's step, and the inversion of the whole step that the invariants are derived from. -/

namespace Sys2Proof.Machine

/-- A change that only the peer sees: the block is as before, no byte waits, and an undefined peer stays so. -/
structure PeerOnly (s t : State) : Prop where
  block : t.withoutPeer = s.withoutPeer
  noByte : t.serialIn = none
  undefined : s.peer = .undefined → t.peer = .undefined
  memory : s.memoryWf = true → t.memoryWf = true

/-- A serial command is one change of a known peer's registers, which leaves the display memory alone (R187). -/
theorem exec_serial_onPeer {b : Byte} {i : Instr} (h : decodeSerial b = .ok i) :
    ∃ f : PeerRegs → PeerRegs, (∀ s : State, exec i s = .next (s.onPeer f)) ∧ ∀ r, (f r).cells = r.cells := by
  simp only [decodeSerial] at h
  repeat' split at h
  all_goals cases h
  all_goals exact ⟨_, fun _ => rfl, fun _ => rfl⟩

/-- A command byte the peer executes is answered with a next state that differs in the peer alone. -/
theorem exec_serial {b : Byte} {i : Instr} (h : decodeSerial b = .ok i) (s : State) (hs : s.serialIn = none) :
    ∃ t, exec i s = .next t ∧ PeerOnly s t := by
  obtain ⟨f, he, hf⟩ := exec_serial_onPeer h
  refine ⟨_, he s, onPeer_withoutPeer f s, (onPeer_serialIn s f).trans hs, ?_, ?_⟩
  · intro hu
    rw [onPeer_undefined s f hu, hu]
  · intro hm
    cases hp : s.peer with
    | undefined => rw [onPeer_undefined s f hp]; exact hm
    | known r =>
      rw [onPeer_known s f r hp]
      simp only [State.memoryWf, hp] at hm ⊢
      rw [hf]
      exact hm

/-- The peer's turn always ends in a next state that differs in the peer alone. -/
theorem peerTurn_next (s : State) : ∃ t, peerTurn s = .next t ∧ PeerOnly s t := by
  unfold peerTurn
  split
  · next h => exact ⟨s, rfl, rfl, h, id, id⟩
  · split
    · next i h =>
      obtain ⟨t, ht, hp⟩ := exec_serial h { s with serialIn := none } rfl
      exact ⟨t, ht, hp.block, hp.noByte, hp.undefined, hp.memory⟩
    · exact ⟨_, rfl, rfl, rfl, fun _ => rfl, fun _ => rfl⟩

theorem peerTurn_none {s : State} (h : s.serialIn = none) : peerTurn s = .next s := by
  simp only [peerTurn, h]

/-- A busy block's step: the micro-operation at `idx`, the index moved on, and the peer's turn; a fault only where
there is none. -/
theorem busyTurn_some {s : State} {m : MicroOp} (h : s.currentMicro = some m) :
    ∃ t, busyTurn s = .next t ∧ PeerOnly (advance (perform m s)) t := by
  simp only [busyTurn, sequencerStep, h]
  exact peerTurn_next _

theorem busyTurn_none {s : State} (h : s.currentMicro = none) : busyTurn s = .fault .sequencerLost := by
  simp only [busyTurn, sequencerStep, h]

theorem currentMicro_none {s : State} : s.currentMicro = none ↔ s.trace.length ≤ s.idx.toNat :=
  List.getElem?_eq_none_iff

theorem currentMicro_lt {s : State} {m : MicroOp} (h : s.currentMicro = some m) : s.idx.toNat < s.trace.length :=
  (List.getElem?_eq_some_iff.mp h).1

/-! ### The host's turn -/

/-- An idle block takes a legal word. -/
theorem hostTurn_legal {s : State} {w : Word} {ws : List Word} (hp : s.port = w :: ws) (h : legal w = true)
    (hb : s.busy = false) :
    ∃ op : Op, Op.ofCode w.op = some op ∧ hostTurn s = .next (accept op w.arg { s with port := ws }) := by
  obtain ⟨op, hc, -, ha, hd⟩ := decodeWord_legal h
  refine ⟨op, hc, ?_⟩
  simp only [hostTurn, hp, hd]
  rw [exec_instr, takeCommand_idle _ _ (by exact hb)]
  rcases ha with ha | ha <;> simp [ha]

/-- An idle block rejects an illegal word, of whichever class (60_exceptions.md R170, R179). -/
theorem hostTurn_illegal {s : State} {w : Word} {ws : List Word} (hp : s.port = w :: ws) (h : legal w = false)
    (hb : s.busy = false) : hostTurn s = .next (raiseIllegal w { s with port := ws }) := by
  have key : hostTurn s = takeIllegal w { s with port := ws } := by
    rcases decodeWord_illegal h with ⟨-, hd⟩ | ⟨hr, ho, hd⟩ | ⟨-, -, -, hd⟩
    · simp only [hostTurn, hp, hd, exec, execRsvNonZero, hostWord_fields]
    · have hw := hostWord_fields w
      rw [hr, ho] at hw
      simp only [hostTurn, hp, hd, exec, execReservedOp7, hw]
    · simp only [hostTurn, hp, hd, rejectWord]
  rw [key]
  exact takeIllegal_idle w hb

/-! ### The step -/

/-- What a step that answers a next state has done: a reset, the peer's turn, a micro-operation, nothing, an
acceptance or a rejection. `u` is the state with the reset level used up. -/
inductive StepCase (s t : State) : Prop
  | reset (h : s.rstLevel = true) (ht : t = resetEdge s.afterRstLevel)
  | peer (h : s.rstLevel = false) (hb : s.serialIn.isSome = true) (ht : PeerOnly s.afterRstLevel t)
  | micro (h : s.rstLevel = false) (hs : s.serialIn = none) (hb : s.busy = true) (m : MicroOp)
      (hm : s.currentMicro = some m) (ht : PeerOnly (advance (perform m s.afterRstLevel)) t)
  | idle (h : s.rstLevel = false) (hs : s.serialIn = none) (hb : s.busy = false) (hp : s.port = [])
      (ht : t = s.afterRstLevel)
  | accepted (h : s.rstLevel = false) (hs : s.serialIn = none) (hb : s.busy = false) (w : Word) (ws : List Word)
      (hp : s.port = w :: ws) (hl : legal w = true) (op : Op) (hc : Op.ofCode w.op = some op)
      (ht : t = accept op w.arg { s.afterRstLevel with port := ws })
  | rejected (h : s.rstLevel = false) (hs : s.serialIn = none) (hb : s.busy = false) (w : Word) (ws : List Word)
      (hp : s.port = w :: ws) (hl : legal w = false)
      (ht : t = raiseIllegal w { s.afterRstLevel with port := ws })

theorem step_reset {s : State} (h : s.rstLevel = true) : step s = .next (resetEdge s.afterRstLevel) := by
  simp [step, stepOnce, h]

theorem step_peer {s : State} (h : s.rstLevel = false) (hb : s.serialIn.isSome = true) :
    step s = peerTurn s.afterRstLevel := by
  simp [step, stepOnce, activeStep, h, hb]

theorem step_busy {s : State} (h : s.rstLevel = false) (hs : s.serialIn = none) (hb : s.busy = true) :
    step s = busyTurn s.afterRstLevel := by
  simp [step, stepOnce, activeStep, h, hs, hb]

theorem step_host {s : State} (h : s.rstLevel = false) (hs : s.serialIn = none) (hb : s.busy = false) :
    step s = hostTurn s.afterRstLevel := by
  simp [step, stepOnce, activeStep, h, hs, hb]

/-- Every step ends in a next state that one of the cases describes, or finds a busy block without a micro-operation. -/
theorem step_total (s : State) :
    (∃ t, step s = .next t ∧ StepCase s t) ∨
      (step s = .fault .sequencerLost ∧ s.busy = true ∧ s.currentMicro = none) := by
  cases h : s.rstLevel with
  | true => exact .inl ⟨_, step_reset h, .reset h rfl⟩
  | false =>
    cases hs : s.serialIn with
    | some b =>
      obtain ⟨t, ht, hp⟩ := peerTurn_next s.afterRstLevel
      have hb : s.serialIn.isSome = true := by rw [hs]; rfl
      exact .inl ⟨t, (step_peer h hb).trans ht, .peer h hb hp⟩
    | none =>
      cases hb : s.busy with
      | true =>
        cases hm : s.currentMicro with
        | none =>
          exact .inr ⟨(step_busy h hs hb).trans (busyTurn_none hm), rfl, rfl⟩
        | some m =>
          obtain ⟨t, ht, hp⟩ := busyTurn_some (s := s.afterRstLevel) (m := m) hm
          exact .inl ⟨t, (step_busy h hs hb).trans ht, .micro h hs hb m hm hp⟩
      | false =>
        rw [step_host h hs hb]
        cases hp : s.port with
        | nil =>
          refine .inl ⟨s.afterRstLevel, ?_, .idle h hs hb hp rfl⟩
          simp only [hostTurn, afterRstLevel_port, hp]
        | cons w ws =>
          cases hl : legal w with
          | true =>
            obtain ⟨op, hc, ht⟩ := hostTurn_legal (s := s.afterRstLevel) (w := w) (ws := ws) hp hl hb
            exact .inl ⟨_, ht, .accepted h hs hb w ws hp hl op hc rfl⟩
          | false =>
            have ht := hostTurn_illegal (s := s.afterRstLevel) (w := w) (ws := ws) hp hl hb
            exact .inl ⟨_, ht, .rejected h hs hb w ws hp hl rfl⟩

/-- The inversion of a step: the one lemma the invariants are derived from. -/
theorem step_cases {s t : State} (h : step s = .next t) : StepCase s t := by
  rcases step_total s with ⟨u, hu, hc⟩ | ⟨hf, -⟩
  · rw [h] at hu
    cases hu
    exact hc
  · rw [h] at hf
    cases hf

end Sys2Proof.Machine
end

