-- ==== Sys2Proof/Laws/Run.lean ====
section
/-! SUPPORT. Runs of steps: a busy block performs its trace micro-operation by micro-operation, and a command taken by an idle block runs to its end. The block's part of a run is a fold of micro-operations over the state. -/

namespace Sys2Proof.Machine

/-! ### The block's part -/

/-- A list of micro-operations performed on the block. -/
def blockSteps (ms : List MicroOp) (s : State) : State := ms.foldl (fun u m => performBlock m u) s

@[simp] theorem blockSteps_nil (s : State) : blockSteps [] s = s := rfl

@[simp] theorem blockSteps_cons (m : MicroOp) (ms : List MicroOp) (s : State) :
    blockSteps (m :: ms) s = blockSteps ms (performBlock m s) := rfl

theorem blockSteps_append (ms ns : List MicroOp) (s : State) :
    blockSteps (ms ++ ns) s = blockSteps ns (blockSteps ms s) := List.foldl_append

/-- The state with the fields of acceptance and of the sequencer exchanged. -/
def State.withControl (vi : ViolSet) (il bu : Bool) (co : BitVec 3) (aq : Byte) (ix : BitVec 10) (s : State) : State :=
  { s with viol := vi, illegal := il, busy := bu, curOp := co, argQ := aq, idx := ix }

/-- The state with its peer exchanged. -/
def State.withPeer (p : Peer) (x : Option Byte) (s : State) : State := { s with peer := p, serialIn := x }

theorem eq_withPeer_of_block {s t : State} (h : t.withoutPeer = s.withoutPeer) : t = s.withPeer t.peer t.serialIn :=
  (withoutPeer_eq_iff _ _).mp h

@[simp] theorem withPeer_withoutPeer (p : Peer) (x : Option Byte) (s : State) :
    (s.withPeer p x).withoutPeer = s.withoutPeer := rfl

/-- What no micro-operation reads or writes can be exchanged before or after it. -/
theorem performBlock_withControl (m : MicroOp) (vi : ViolSet) (il bu : Bool) (co : BitVec 3) (aq : Byte)
    (ix : BitVec 10) (s : State) :
    performBlock m (s.withControl vi il bu co aq ix) = (performBlock m s).withControl vi il bu co aq ix := by
  cases m with
  | setPin q v => cases q <;> rfl
  | setDir S d => rfl
  | wait => rfl
  | sample j => rfl
  | store k => rfl

theorem blockSteps_withControl (ms : List MicroOp) (vi : ViolSet) (il bu : Bool) (co : BitVec 3) (aq : Byte)
    (ix : BitVec 10) (s : State) :
    blockSteps ms (s.withControl vi il bu co aq ix) = (blockSteps ms s).withControl vi il bu co aq ix := by
  induction ms generalizing s with
  | nil => rfl
  | cons m ms ih => rw [blockSteps_cons, performBlock_withControl, ih, blockSteps_cons]

theorem blockSteps_withPeer (ms : List MicroOp) (p : Peer) (x : Option Byte) (s : State) :
    blockSteps ms (s.withPeer p x) = (blockSteps ms s).withPeer p x := by
  induction ms generalizing s with
  | nil => rfl
  | cons m ms ih =>
    rw [blockSteps_cons, State.withPeer, performBlock_exchange]
    exact ih _

/-! ### Lengths of traces (R22) -/

@[simp] theorem byteSeq_length (v : Byte) : (byteSeq v).length = 48 := rfl

@[simp] theorem byteRun_length (v : Byte) (n : Nat) : (byteRun v n).length = 48 * n := by
  induction n with
  | zero => rfl
  | succ n ih => simp only [byteRun, List.length_append, byteSeq_length, ih]; omega

@[simp] theorem scanByte_length (k : Fin 4) : (scanByte k).length = 49 := rfl

/-- The length of each trace (70_reset_and_hazards.md R215). -/
theorem traceOf_length (op : Op) (arg : Byte) :
    (traceOf op arg).length =
      match op with
      | .configure => 1
      | .openTxn => 2
      | .closeTxn => 2
      | .sendByte => 48
      | .readKeyboard => 251
      | .setBrightness => 52
      | .clearDisplay => 872 := by
  cases op with
  | clearDisplay =>
    simp only [traceOf, traceClearDisplay, List.length_append, byteSeq_length, byteRun_length]
    rfl
  | configure => rfl
  | openTxn => rfl
  | closeTxn => rfl
  | sendByte => rfl
  | readKeyboard =>
    simp only [traceOf, traceReadKeyboard, List.length_append, byteSeq_length, scanByte_length]
    rfl
  | setBrightness => rfl

/-- No trace is longer than 872 micro-operations (43_display_commands.md R163). -/
theorem traceOf_length_le (op : Op) (arg : Byte) : (traceOf op arg).length ≤ 872 := by
  rw [traceOf_length]
  cases op <;> decide

theorem traceOf_ne_nil (op : Op) (arg : Byte) : traceOf op arg ≠ [] := by
  intro h
  have hl := traceOf_length op arg
  rw [h] at hl
  cases op <;> simp at hl

theorem trace_length_le (s : State) : s.trace.length ≤ 872 := by
  unfold State.trace expand
  split
  · exact traceOf_length_le _ _
  · simp

/-- The index does not wrap while it stands inside a trace (10_state.md R44). -/
theorem idx_succ {s : State} (h : s.idx.toNat < s.trace.length) : (s.idx + 1).toNat = s.idx.toNat + 1 := by
  have := trace_length_le s
  rw [BitVec.toNat_add, show (1 : BitVec 10).toNat = 1 from rfl]
  omega

/-! ### A busy block -/

@[simp] theorem run_zero (s : State) : run 0 s = .next s := rfl

theorem run_succ {s t : State} (n : Nat) (h : step s = .next t) : run (n + 1) s = run n t := by
  simp only [run, h]

/-- A run is a run followed by a run. -/
theorem run_add {s t : State} (m n : Nat) (h : run m s = .next t) : run (m + n) s = run n t := by
  induction m generalizing s with
  | zero => cases h; rw [Nat.zero_add]
  | succ m ih =>
    rw [Nat.add_right_comm]
    simp only [run] at h ⊢
    cases hs : step s with
    | next u => rw [hs] at h; exact ih h
    | fault f => rw [hs] at h; cases h
    | refused r => rw [hs] at h; cases h

theorem rstLevel_quiet {s : State} (h : s.rstPlan = []) : s.rstLevel = false := by
  simp only [State.rstLevel, h, List.headD_nil]

theorem afterRstLevel_quiet {s : State} (h : s.rstPlan = []) : s.afterRstLevel = s := by
  unfold State.afterRstLevel
  rw [h, List.tail_nil, ← h]

/-- A quiet busy block performs its next micro-operation. -/
theorem step_micro {s : State} {m : MicroOp} (hb : s.busy = true) (hq : s.Quiet) (hm : s.currentMicro = some m) :
    ∃ t, step s = .next t ∧ PeerOnly (advance (perform m s)) t := by
  rw [step_busy (rstLevel_quiet hq.1) hq.2 hb, afterRstLevel_quiet hq.1]
  exact busyTurn_some hm

/-- The block's part of a micro-operation with its index moved on. -/
theorem advance_perform (m : MicroOp) (s : State) :
    (advance (perform m s)).withoutPeer =
      ((performBlock m s).withControl s.viol s.illegal (s.idx.toNat + 1 != s.trace.length) s.curOp s.argQ
        (s.idx + 1)).withoutPeer := by
  have hw := eq_withPeer_of_block (watch_withoutPeer s (performBlock m s))
  unfold perform
  rw [hw]
  cases m with
  | setPin q v => cases q <;> rfl
  | setDir S d => rfl
  | wait => rfl
  | sample j => rfl
  | store k => rfl

/-- A quiet busy block performs the micro-operations `ms` that come next in its trace. -/
theorem run_micros (ms rest : List MicroOp) {s : State} (hb : s.busy = true) (hq : s.Quiet)
    (ht : s.trace.drop s.idx.toNat = ms ++ rest) (hne : ms ≠ []) :
    ∃ t, run ms.length s = .next t ∧ t.serialIn = none ∧
      t.withoutPeer =
        ((blockSteps ms s).withControl s.viol s.illegal (!rest.isEmpty) s.curOp s.argQ
          (s.idx + BitVec.ofNat 10 ms.length)).withoutPeer := by
  induction ms generalizing s with
  | nil => exact absurd rfl hne
  | cons m ms ih =>
    have hm : s.currentMicro = some m := by
      have h0 : (s.trace.drop s.idx.toNat)[0]? = some m := by rw [ht]; rfl
      rw [List.getElem?_drop, Nat.add_zero] at h0
      exact h0
    have hlt := currentMicro_lt hm
    have hlen : s.trace.length - s.idx.toNat = ms.length + 1 + rest.length := by
      have := congrArg List.length ht
      simpa only [List.length_drop, List.length_append, List.length_cons] using this
    obtain ⟨t, hst, hp⟩ := step_micro hb hq hm
    have hblock := hp.block.trans (advance_perform m s)
    have hte := eq_withPeer_of_block hblock
    rw [List.length_cons, run_succ _ hst]
    by_cases hms : ms = []
    · subst hms
      refine ⟨t, rfl, hp.noByte, ?_⟩
      have hbz : (s.idx.toNat + 1 != s.trace.length) = !rest.isEmpty := by
        rw [List.length_nil] at hlen
        cases rest with
        | nil => rw [List.length_nil] at hlen; simp only [List.isEmpty_nil, Bool.not_true, bne_eq_false_iff_eq]; omega
        | cons r rs => rw [List.length_cons] at hlen; simp only [List.isEmpty_cons, Bool.not_false, bne_iff_ne]; omega
      rw [hblock, hbz]
      rfl
    · have hbt : t.busy = true := by
        have : ms.length ≠ 0 := fun h => hms (List.length_eq_zero_iff.mp h)
        rw [hte]
        simp only [State.withPeer, State.withControl, bne_iff_ne]
        omega
      have hit : t.idx = s.idx + 1 := by rw [hte]; rfl
      have htr : t.trace = s.trace := by rw [hte]; rfl
      have hqt : t.Quiet := by
        refine ⟨?_, hp.noByte⟩
        rw [hte]
        exact (performBlock_frame m s).2.2.2.2.2.2.2.2.2.2.2.trans hq.1
      have hdrop : t.trace.drop t.idx.toNat = ms ++ rest := by
        rw [htr, hit, idx_succ hlt, ← List.drop_drop, ht]
        rfl
      obtain ⟨u, hu, hnb, hbu⟩ := ih hbt hqt hdrop hms
      refine ⟨u, hu, hnb, ?_⟩
      have hidx : s.idx + 1 + BitVec.ofNat 10 ms.length = s.idx + BitVec.ofNat 10 (ms.length + 1) := by
        rw [BitVec.add_assoc, Nat.add_comm ms.length 1, BitVec.ofNat_add]
        rfl
      rw [hbu, hit, hidx, hte, blockSteps_withPeer, blockSteps_withControl]
      rfl

/-- A command taken by an idle quiet block runs to its end in as many steps as its trace is long (R49, R50). -/
theorem run_command (op : Op) (arg : Byte) {s : State} (hq : s.Quiet) :
    ∃ t, run (traceOf op arg).length (accept op arg s) = .next t ∧ t.serialIn = none ∧
      t.withoutPeer =
        ((blockSteps (traceOf op arg) s).withControl (checkViolations op s).viol false false op.code arg
          (BitVec.ofNat 10 (traceOf op arg).length)).withoutPeer := by
  have ha : accept op arg s =
      (s.withControl (checkViolations op s).viol false true op.code arg 0).withPeer (accept op arg s).peer
        (accept op arg s).serialIn :=
    eq_withPeer_of_block (accept_withoutPeer op arg s)
  have hqa : (accept op arg s).Quiet := by
    refine ⟨?_, (accept_serialIn op arg s).trans hq.2⟩
    rw [ha]
    exact hq.1
  have hd : (accept op arg s).trace.drop (accept op arg s).idx.toNat = traceOf op arg ++ [] := by
    rw [accept_trace, List.append_nil]
    rfl
  obtain ⟨t, ht, hn, hb⟩ := run_micros (traceOf op arg) [] rfl hqa hd (traceOf_ne_nil op arg)
  refine ⟨t, ht, hn, ?_⟩
  have hidx : (accept op arg s).idx + BitVec.ofNat 10 (traceOf op arg).length =
      BitVec.ofNat 10 (traceOf op arg).length := BitVec.zero_add _
  rw [hb, hidx, ha, blockSteps_withPeer, blockSteps_withControl]
  rfl

/-- A host operation given to an idle quiet block is accepted, and its trace runs to its end (R48 to R50). -/
theorem exec_run (op : Op) (arg : Byte) (ha : op.takesArg = true ∨ arg = 0x00) {s : State} (h : s.IdleQuiet) :
    ∃ t, exec (op.instr arg) s = .next (accept op arg s) ∧
      run (traceOf op arg).length (accept op arg s) = .next t ∧ t.serialIn = none ∧
      t.withoutPeer =
        ((blockSteps (traceOf op arg) s).withControl (checkViolations op s).viol false false op.code arg
          (BitVec.ofNat 10 (traceOf op arg).length)).withoutPeer := by
  have harg : (if op.takesArg then arg else 0x00) = arg := by rcases ha with h | h <;> simp [h]
  obtain ⟨t, ht, hn, hb⟩ := run_command op arg h.2
  refine ⟨t, ?_, ht, hn, hb⟩
  rw [exec_instr, harg]
  exact takeCommand_idle _ _ h.1

/-- The fields of the state a command ends in, for any command. -/
theorem run_fields {op : Op} {arg : Byte} {s t : State}
    (h : t.withoutPeer =
      ((blockSteps (traceOf op arg) s).withControl (checkViolations op s).viol false false op.code arg
        (BitVec.ofNat 10 (traceOf op arg).length)).withoutPeer) :
    t.ev = (blockSteps (traceOf op arg) s).ev ∧ t.viol = (checkViolations op s).viol ∧ t.busy = false ∧
      t.keybuf = (blockSteps (traceOf op arg) s).keybuf ∧ t.stbQ = (blockSteps (traceOf op arg) s).stbQ ∧
      t.clkQ = (blockSteps (traceOf op arg) s).clkQ ∧ t.oes = (blockSteps (traceOf op arg) s).oes ∧
      t.port = (blockSteps (traceOf op arg) s).port ∧ t.rstPlan = (blockSteps (traceOf op arg) s).rstPlan := by
  rw [eq_withPeer_of_block h]
  exact ⟨rfl, rfl, rfl, rfl, rfl, rfl, rfl, rfl, rfl⟩

/-- A legal word on the port of an idle quiet block is accepted in one step, and its trace runs to its end. -/
theorem run_word {s : State} {w : Word} {ws : List Word} (h : s.IdleQuiet) (hp : s.port = w :: ws)
    (hl : legal w = true) :
    ∃ (op : Op) (t : State), Op.ofCode w.op = some op ∧ run (1 + (traceOf op w.arg).length) s = .next t ∧
      t.serialIn = none ∧
      t.withoutPeer =
        ((blockSteps (traceOf op w.arg) { s with port := ws }).withControl
          (checkViolations op { s with port := ws }).viol false false op.code w.arg
          (BitVec.ofNat 10 (traceOf op w.arg).length)).withoutPeer := by
  obtain ⟨op, hc, hh⟩ := hostTurn_legal hp hl h.1
  obtain ⟨t, ht, hn, hb⟩ := run_command op w.arg (s := { s with port := ws }) h.2
  refine ⟨op, t, hc, ?_, hn, hb⟩
  rw [Nat.add_comm, run_succ _ (t := accept op w.arg { s with port := ws })]
  · exact ht
  · rw [step_host (rstLevel_quiet h.2.1) h.2.2 h.1, afterRstLevel_quiet h.2.1, hh]

end Sys2Proof.Machine
end

