-- ==== Sys2Proof/Laws/Folds.lean ====
section
/-! SUPPORT. What a whole trace leaves of strobe, clock, directions and accumulator (00_scope.md R21), and how the remaining micro-operations of a busy block shrink. -/

namespace Sys2Proof.Machine

/-! ### Sequences -/

theorem clk_bitOut (b q : Bool) : (bitOut b).foldl clkAfterMicro q = true := rfl

theorem clk_byteSeq (v : Byte) (q : Bool) : (byteSeq v).foldl clkAfterMicro q = true := rfl

theorem clk_byteRun (v : Byte) (n : Nat) : (byteRun v n).foldl clkAfterMicro true = true := by
  induction n with
  | zero => rfl
  | succ n ih => rw [byteRun, List.foldl_append, clk_byteSeq, ih]

theorem clk_scanByte (k : Fin 4) (q : Bool) : (scanByte k).foldl clkAfterMicro q = true := rfl

theorem stb_byteSeq (v : Byte) (q : Bool) : (byteSeq v).foldl stbAfterMicro q = q := rfl

theorem stb_byteRun (v : Byte) (n : Nat) (q : Bool) : (byteRun v n).foldl stbAfterMicro q = q := by
  induction n with
  | zero => rfl
  | succ n ih => rw [byteRun, List.foldl_append, stb_byteSeq, ih]

theorem stb_scanByte (k : Fin 4) (q : Bool) : (scanByte k).foldl stbAfterMicro q = q := rfl

theorem oes_byteSeq (v : Byte) (q : PinSet) : (byteSeq v).foldl oeAfterMicro q = q := rfl

theorem oes_byteRun (v : Byte) (n : Nat) (q : PinSet) : (byteRun v n).foldl oeAfterMicro q = q := by
  induction n with
  | zero => rfl
  | succ n ih => rw [byteRun, List.foldl_append, oes_byteSeq, ih]

theorem oes_scanByte (k : Fin 4) (q : PinSet) : (scanByte k).foldl oeAfterMicro q = q := rfl

theorem acc_byteSeq (v : Byte) (c : Bool) : (byteSeq v).foldl accClearAfterMicro c = c := rfl

theorem acc_byteRun (v : Byte) (n : Nat) (c : Bool) : (byteRun v n).foldl accClearAfterMicro c = c := by
  induction n with
  | zero => rfl
  | succ n ih => rw [byteRun, List.foldl_append, acc_byteSeq, ih]

theorem acc_scanByte (k : Fin 4) (c : Bool) : (scanByte k).foldl accClearAfterMicro c = true := rfl

/-! ### Traces -/

/-- Every trace leaves a high clock high (10_state.md R54). -/
theorem clk_traceOf (op : Op) (arg : Byte) : (traceOf op arg).foldl clkAfterMicro true = true := by
  cases op with
  | configure => rfl
  | openTxn => rfl
  | closeTxn => rfl
  | sendByte => exact clk_byteSeq arg true
  | readKeyboard =>
    simp only [traceOf, traceReadKeyboard, List.foldl_append, clk_scanByte]
    rfl
  | setBrightness =>
    simp only [traceOf, traceSetBrightness, List.foldl_append, clk_byteSeq]
    rfl
  | clearDisplay =>
    simp only [traceOf, traceClearDisplay, List.foldl_append, clk_byteSeq, clk_byteRun]
    rfl

/-- What a trace leaves of strobe: whether a transaction is open after it (R214). -/
theorem stb_traceOf (op : Op) (arg : Byte) (q : Bool) :
    (traceOf op arg).foldl stbAfterMicro q = !txnAfter (!q) op := by
  cases op with
  | configure => simp only [txnAfter, Bool.not_not]; rfl
  | openTxn => rfl
  | closeTxn => rfl
  | sendByte => simp only [txnAfter, Bool.not_not]; exact stb_byteSeq arg q
  | readKeyboard =>
    simp only [traceOf, traceReadKeyboard, List.foldl_append, stb_scanByte]
    rfl
  | setBrightness =>
    simp only [traceOf, traceSetBrightness, List.foldl_append, stb_byteSeq]
    rfl
  | clearDisplay =>
    simp only [traceOf, traceClearDisplay, List.foldl_append, stb_byteSeq, stb_byteRun]
    rfl

/-- What a trace leaves of the directions: CONFIGURE drives all pins, READ_KEYBOARD drives DIO, the others leave them
(40_pin_control.md R113). -/
theorem oes_traceOf (op : Op) (arg : Byte) (q : PinSet) :
    (traceOf op arg).foldl oeAfterMicro q =
      match op with
      | .configure => ⟨true, true, true⟩
      | .readKeyboard => ⟨q.stb, q.clk, true⟩
      | .openTxn => q
      | .closeTxn => q
      | .sendByte => q
      | .setBrightness => q
      | .clearDisplay => q := by
  cases op with
  | configure => rfl
  | openTxn => rfl
  | closeTxn => rfl
  | sendByte => exact oes_byteSeq arg q
  | readKeyboard =>
    simp only [traceOf, traceReadKeyboard, List.foldl_append, oes_scanByte]
    rfl
  | setBrightness =>
    simp only [traceOf, traceSetBrightness, List.foldl_append, oes_byteSeq]
    rfl
  | clearDisplay =>
    simp only [traceOf, traceClearDisplay, List.foldl_append, oes_byteSeq, oes_byteRun]
    rfl

/-- Every trace leaves an empty accumulator empty (10_state.md R40). -/
theorem acc_traceOf (op : Op) (arg : Byte) : (traceOf op arg).foldl accClearAfterMicro true = true := by
  cases op with
  | configure => rfl
  | openTxn => rfl
  | closeTxn => rfl
  | sendByte => exact acc_byteSeq arg true
  | readKeyboard =>
    simp only [traceOf, traceReadKeyboard, List.foldl_append, acc_scanByte]
    rfl
  | setBrightness =>
    simp only [traceOf, traceSetBrightness, List.foldl_append, acc_byteSeq]
    rfl
  | clearDisplay =>
    simp only [traceOf, traceClearDisplay, List.foldl_append, acc_byteSeq, acc_byteRun]
    rfl

/-! ### What is left of a trace -/

/-- The accumulator after a micro-operation: known to be empty where the fold says so. -/
theorem performBlock_acc (m : MicroOp) (s : State) (c : Bool) (h : c = true → s.acc = 0x00) :
    accClearAfterMicro c m = true → (performBlock m s).acc = 0x00 := by
  intro hc
  cases m with
  | setPin q v => cases q <;> exact h hc
  | setDir S d => exact h hc
  | wait => exact h hc
  | sample j => cases hc
  | store k => rfl

theorem rest_idle {s : State} (h : s.busy = false) : s.rest = [] := by
  simp only [State.rest, h, Bool.false_eq_true, if_false]

theorem rest_withoutPeer {s t : State} (h : s.withoutPeer = t.withoutPeer) : s.rest = t.rest := by
  rw [eq_withPeer_of_block h]
  rfl

@[simp] theorem rest_accept (op : Op) (arg : Byte) (s : State) : (accept op arg s).rest = traceOf op arg := by
  simp only [State.rest, accept_trace]
  rfl

theorem rest_of_micro {s : State} {m : MicroOp} (hb : s.busy = true) (hm : s.currentMicro = some m) :
    s.rest = m :: s.trace.drop (s.idx.toNat + 1) := by
  simp only [State.rest, hb, if_true]
  exact List.drop_eq_getElem_cons (currentMicro_lt hm) ▸
    (congrArg (· :: _) ((List.getElem?_eq_some_iff.mp hm).2)).symm ▸ rfl

/-- A step of a busy block takes the first of the remaining micro-operations. -/
theorem rest_advance {s : State} {m : MicroOp} (hb : s.busy = true) (hm : s.currentMicro = some m) :
    s.rest = m :: (advance (perform m s)).rest := by
  rw [rest_of_micro hb hm, rest_withoutPeer (advance_perform m s)]
  have hl := currentMicro_lt hm
  have ht : ((performBlock m s).withControl s.viol s.illegal (s.idx.toNat + 1 != s.trace.length) s.curOp s.argQ
      (s.idx + 1)).trace = s.trace := rfl
  simp only [State.rest, ht]
  by_cases h : s.idx.toNat + 1 = s.trace.length
  · rw [if_neg, h, List.drop_length]
    show ¬ (s.idx.toNat + 1 != s.trace.length) = true
    simpa using h
  · rw [if_pos]
    · exact congrArg (fun n => m :: s.trace.drop n) (idx_succ hl).symm
    · show (s.idx.toNat + 1 != s.trace.length) = true
      simpa using h

/-- The block after a micro-operation's step, field by field where the invariants look. -/
theorem micro_fields {s t : State} {m : MicroOp} (h : PeerOnly (advance (perform m s.afterRstLevel)) t) :
    t.clkQ = clkAfterMicro s.clkQ m ∧ t.oes = oeAfterMicro s.oes m ∧ t.stbQ = stbAfterMicro s.stbQ m ∧
      t.viol = s.viol ∧ t.port = s.port ∧ t.rstPlan = s.rstPlan.tail ∧ t.acc = (performBlock m s.afterRstLevel).acc ∧
      t.keybuf = (performBlock m s.afterRstLevel).keybuf ∧ t.ev = (performBlock m s.afterRstLevel).ev := by
  have hblk := eq_withPeer_of_block (h.block.trans (advance_perform m s.afterRstLevel))
  have hf := performBlock_frame m s.afterRstLevel
  rw [hblk]
  exact ⟨performBlock_clkQ m s.afterRstLevel, performBlock_oes m s.afterRstLevel, performBlock_stbQ m s.afterRstLevel,
    rfl, hf.2.2.2.2.2.2.2.2.2.2.1, hf.2.2.2.2.2.2.2.2.2.2.2, rfl, rfl, rfl⟩

theorem micro_rest {s t : State} {m : MicroOp} (hb : s.busy = true) (hm : s.currentMicro = some m)
    (h : PeerOnly (advance (perform m s.afterRstLevel)) t) : s.rest = m :: t.rest := by
  rw [rest_withoutPeer h.block]
  exact rest_advance (s := s.afterRstLevel) hb hm

/-- A micro-operation's step changes none of the values the running command will end with. -/
theorem micro_finals {s t : State} {m : MicroOp} (hb : s.busy = true) (hm : s.currentMicro = some m)
    (h : PeerOnly (advance (perform m s.afterRstLevel)) t) :
    t.finalClk = s.finalClk ∧ t.finalOes = s.finalOes ∧ t.finalStb = s.finalStb := by
  obtain ⟨h1, h2, h3, -⟩ := micro_fields h
  simp only [State.finalClk, State.finalOes, State.finalStb, micro_rest hb hm h, List.foldl_cons, h1, h2, h3,
    and_self]

/-! ### Where directions and the key buffer are written (10_state.md R39, 40_pin_control.md R113) -/

/-- Neither a `SetDir` nor a `Store`. -/
def MicroOp.isPlain : MicroOp → Bool
  | .setDir _ _ => false
  | .store _ => false
  | .setPin _ _ => true
  | .wait => true
  | .sample _ => true

theorem plain_byteSeq (v : Byte) : ∀ m ∈ byteSeq v, m.isPlain = true := by
  intro m hm
  simp only [byteSeq, List.mem_flatMap, bitOut] at hm
  obtain ⟨b, -, hm⟩ := hm
  simp only [List.mem_cons, List.not_mem_nil, or_false] at hm
  rcases hm with rfl | rfl | rfl | rfl | rfl | rfl <;> rfl

theorem plain_byteRun (v : Byte) (n : Nat) : ∀ m ∈ byteRun v n, m.isPlain = true := by
  induction n with
  | zero => intro m hm; cases hm
  | succ n ih =>
    intro m hm
    rcases List.mem_append.mp hm with h | h
    · exact plain_byteSeq v m h
    · exact ih m h

theorem plain_ends : (∀ m ∈ openSeq, m.isPlain = true) ∧ (∀ m ∈ closeSeq, m.isPlain = true) := by decide

/-- Where the two `SetDir` and the four `Store` of READ_KEYBOARD stand (42_read_keyboard.md R140). -/
def readKeyboardPlaces (i : Nat) (m : MicroOp) : Bool :=
  match m with
  | .setDir S d => S == PinSet.dioOnly && ((i == 50 && !d) || (i == 248 && d))
  | .store k => i == 100 + 49 * k.val
  | .setPin _ _ => true
  | .wait => true
  | .sample _ => true

/-- The places of a list that starts at place `i`. -/
def placesFrom (i : Nat) : List MicroOp → Bool
  | [] => true
  | m :: ms => readKeyboardPlaces i m && placesFrom (i + 1) ms

theorem placesFrom_get {ms : List MicroOp} {i j : Nat} {m : MicroOp} (h : placesFrom i ms = true)
    (hm : ms[j]? = some m) : readKeyboardPlaces (i + j) m = true := by
  induction ms generalizing i j with
  | nil => cases hm
  | cons m' ms ih =>
    simp only [placesFrom, Bool.and_eq_true] at h
    cases j with
    | zero => cases hm; exact h.1
    | succ j =>
      rw [show i + (j + 1) = i + 1 + j by omega]
      exact ih h.2 hm

theorem placesFrom_append (ms ns : List MicroOp) (i : Nat) :
    placesFrom i (ms ++ ns) = (placesFrom i ms && placesFrom (i + ms.length) ns) := by
  induction ms generalizing i with
  | nil => rfl
  | cons m ms ih =>
    rw [List.cons_append, placesFrom, placesFrom, ih, List.length_cons, Bool.and_assoc,
      show i + 1 + ms.length = i + (ms.length + 1) by omega]

theorem places_readKeyboard : placesFrom 0 traceReadKeyboard = true := by
  have h0 : placesFrom 2 (byteSeq Ser.readKeyScan) = true := by decide
  have h1 : placesFrom 52 (scanByte 0) = true := by decide
  have h2 : placesFrom 101 (scanByte 1) = true := by decide
  have h3 : placesFrom 150 (scanByte 2) = true := by decide
  have h4 : placesFrom 199 (scanByte 3) = true := by decide
  have h5 : placesFrom 248 [MicroOp.setDir PinSet.dioOnly true] = true := by decide
  simp only [traceReadKeyboard, placesFrom_append, List.length_append, byteSeq_length, scanByte_length,
    show openSeq.length = 2 from rfl, List.length_cons, List.length_nil, Nat.zero_add, Nat.reduceAdd, h0, h1, h2, h3,
    h4, h5]
  decide

/-- A micro-operation of a trace that is a `SetDir` or a `Store` is CONFIGURE's one, or one of READ_KEYBOARD's six. -/
theorem traceOf_special {op : Op} {arg : Byte} {i : Nat} {m : MicroOp} (h : (traceOf op arg)[i]? = some m)
    (hp : m.isPlain = false) :
    (op = .configure ∧ m = .setDir PinSet.all true) ∨
      (op = .readKeyboard ∧
        ((i = 50 ∧ m = .setDir PinSet.dioOnly false) ∨ (i = 248 ∧ m = .setDir PinSet.dioOnly true) ∨
          ∃ k : Fin 4, i = 100 + 49 * k.val ∧ m = .store k)) := by
  have hmem := List.mem_of_getElem? h
  have no : ∀ T : List MicroOp, (∀ m ∈ T, m.isPlain = true) → m ∈ T → False := by
    intro T hT hm
    have := hT m hm
    rw [hp] at this
    cases this
  obtain ⟨ho, hc⟩ := plain_ends
  cases op with
  | configure => exact .inl ⟨rfl, by simpa [traceOf, traceConfigure] using hmem⟩
  | openTxn => exact (no _ ho hmem).elim
  | closeTxn => exact (no _ hc hmem).elim
  | sendByte => exact (no _ (plain_byteSeq arg) hmem).elim
  | setBrightness =>
    simp only [traceOf, traceSetBrightness, List.mem_append] at hmem
    rcases hmem with (h | h) | h
    · exact (no _ ho h).elim
    · exact (no _ (plain_byteSeq _) h).elim
    · exact (no _ hc h).elim
  | clearDisplay =>
    simp only [traceOf, traceClearDisplay, List.mem_append] at hmem
    rcases hmem with (((((h | h) | h) | h) | h) | h) | h
    · exact (no _ ho h).elim
    · exact (no _ (plain_byteSeq _) h).elim
    · exact (no _ hc h).elim
    · exact (no _ ho h).elim
    · exact (no _ (plain_byteSeq _) h).elim
    · exact (no _ (plain_byteRun _ _) h).elim
    · exact (no _ hc h).elim
  | readKeyboard =>
    refine .inr ⟨rfl, ?_⟩
    have hpl := placesFrom_get places_readKeyboard h
    rw [Nat.zero_add] at hpl
    cases m with
    | setDir S d =>
      simp only [readKeyboardPlaces, Bool.and_eq_true, Bool.or_eq_true, beq_iff_eq] at hpl
      obtain ⟨hS, h | h⟩ := hpl
      · refine .inl ⟨h.1, ?_⟩
        rw [hS, show d = false by simpa using h.2]
      · exact .inr (.inl ⟨h.1, by rw [hS, h.2]⟩)
    | store k => exact .inr (.inr ⟨k, by simpa [readKeyboardPlaces] using hpl, rfl⟩)
    | setPin p v => cases hp
    | wait => cases hp
    | sample j => cases hp

theorem op_code_of_ofCode {c : BitVec 3} {op : Op} (h : Op.ofCode c = some op) : c = op.code := by
  revert h
  revert c op
  decide

/-- The same for the micro-operation at `idx`. -/
theorem currentMicro_special {s : State} {m : MicroOp} (h : s.currentMicro = some m) (hp : m.isPlain = false) :
    (s.curOp = Op.configure.code ∧ m = .setDir PinSet.all true) ∨
      (s.curOp = Op.readKeyboard.code ∧
        ((s.idx.toNat = 50 ∧ m = .setDir PinSet.dioOnly false) ∨
          (s.idx.toNat = 248 ∧ m = .setDir PinSet.dioOnly true) ∨
          ∃ k : Fin 4, s.idx.toNat = 100 + 49 * k.val ∧ m = .store k)) := by
  unfold State.currentMicro State.trace expand at h
  cases ho : Op.ofCode s.curOp with
  | none => rw [ho] at h; cases h
  | some op =>
    rw [ho] at h
    rw [op_code_of_ofCode ho]
    rcases traceOf_special h hp with ⟨h1, h2⟩ | ⟨h1, h2⟩
    · exact .inl ⟨by rw [h1], h2⟩
    · exact .inr ⟨by rw [h1], h2⟩

end Sys2Proof.Machine
end

