-- ==== Sys2Proof/Laws/Sequences.lean ====
section
/-! SUPPORT. What each composite sequence of 00_scope.md R21 does to the block, and to the frames the peer receives (41_send_byte.md R130). -/

namespace Sys2Proof.Machine

/-- The bits of a byte in serial order make the byte again (R61, R129). -/
theorem byteOfBits_bitsOfByte (v : Byte) : byteOfBits (bitsOfByte v) = v := by
  revert v
  decide

theorem blockSteps_openSeq (s : State) :
    blockSteps openSeq s = { s with stbQ := false, ev := s.ev ++ [.pin .stb false, .delay] } := by
  simp [openSeq, performBlock, applyMicro, MicroOp.isSample, setPin, wait, State.emit, State.setLatch]

theorem blockSteps_closeSeq (s : State) :
    blockSteps closeSeq s = { s with stbQ := true, ev := s.ev ++ [.pin .stb true, .delay] } := by
  simp [closeSeq, performBlock, applyMicro, MicroOp.isSample, setPin, wait, State.emit, State.setLatch]

theorem blockSteps_bitOut (b : Bool) (s : State) :
    blockSteps (bitOut b) s = { s with clkQ := true, dioQ := b, ev := s.ev ++ bitEvents b } := by
  simp [bitOut, bitEvents, performBlock, applyMicro, MicroOp.isSample, setPin, wait, State.emit, State.setLatch]

/-- A byte sent (R125, R131). -/
theorem blockSteps_byteSeq (v : Byte) (s : State) :
    blockSteps (byteSeq v) s = { s with clkQ := true, dioQ := v.getLsbD 7, ev := s.ev ++ byteEvents v } := by
  simp [byteSeq, bitsOfByte, byteEvents, blockSteps_append, blockSteps_bitOut]

theorem blockSteps_byteRun (v : Byte) (n : Nat) (s : State) :
    blockSteps (byteRun v (n + 1)) s =
      { s with
        clkQ := true, dioQ := v.getLsbD 7
        ev := s.ev ++ (List.replicate (n + 1) (byteEvents v)).flatten } := by
  induction n generalizing s with
  | zero => simp [byteRun, blockSteps_byteSeq]
  | succ n ih =>
    rw [byteRun, blockSteps_append, ih, blockSteps_byteSeq, List.replicate_succ (n := n + 1), List.flatten_cons]
    simp only [List.append_assoc]

/-- The events of SET_BRIGHTNESS and of any transaction of one byte (43_display_commands.md R155). -/
def oneByteEvents (v : Byte) : List Event :=
  [.pin .stb false, .delay] ++ byteEvents v ++ [.pin .stb true, .delay]

/-- What SET_BRIGHTNESS does to the block (R155). -/
theorem blockSteps_setBrightness (v : Byte) (s : State) :
    blockSteps (traceSetBrightness v) s =
      { s with stbQ := true, clkQ := true, dioQ := (encBright v).getLsbD 7, ev := s.ev ++ oneByteEvents (encBright v) } := by
  simp only [traceSetBrightness, blockSteps_append, blockSteps_openSeq, blockSteps_byteSeq, blockSteps_closeSeq,
    oneByteEvents, List.append_assoc]

/-- The events of CLEAR_DISPLAY (R159). -/
def clearDisplayEvents : List Event :=
  oneByteEvents 0x40 ++ ([.pin .stb false, .delay] ++ (0xC0 :: List.replicate 16 (0x00 : Byte)).flatMap byteEvents
    ++ [.pin .stb true, .delay])

/-- What CLEAR_DISPLAY does to the block (R159). -/
theorem blockSteps_clearDisplay (s : State) :
    blockSteps traceClearDisplay s =
      { s with stbQ := true, clkQ := true, dioQ := false, ev := s.ev ++ clearDisplayEvents } := by
  have h : (List.replicate 16 (0x00 : Byte)).flatMap byteEvents = (List.replicate 16 (byteEvents 0x00)).flatten := by
    rw [List.flatMap_def, List.map_replicate]
  simp only [traceClearDisplay, blockSteps_append, blockSteps_openSeq, blockSteps_byteSeq, blockSteps_closeSeq,
    Config.displayCells, blockSteps_byteRun, clearDisplayEvents, oneByteEvents, List.flatMap_cons, h, List.append_assoc]
  rfl

/-! ### The key-scan read (42_read_keyboard.md R140, R143) -/

theorem drawLevel_eq (s : State) : s.drawLevel = s.nthDraw 0 := by
  cases h : s.dioPlan <;> simp [State.drawLevel, State.nthDraw, h]

theorem nthDraw_afterDraw (s : State) (n : Nat) : s.afterDraw.nthDraw n = s.nthDraw (n + 1) := by
  cases h : s.dioPlan with
  | nil => simp [State.afterDraw, State.nthDraw, h, Nat.add_assoc, Nat.add_comm 1 n]
  | cons b bs =>
    simp only [State.afterDraw, State.nthDraw, h, List.tail_cons, List.getElem?_cons_succ]
    rw [Nat.add_assoc, Nat.add_comm 1 n]

/-- The state after `n` draws. -/
def State.afterDraws (n : Nat) (s : State) : State :=
  { s with dioPlan := s.dioPlan.drop n, draws := s.draws + n }

theorem nthDraw_afterDraws (s : State) (k n : Nat) : (s.afterDraws k).nthDraw n = s.nthDraw (k + n) := by
  simp only [State.afterDraws, State.nthDraw, List.getElem?_drop, Nat.add_assoc]

/-- The bit a sample puts into the accumulator (R19). -/
def sampledBit (j : Nat) (b : Bool) : Byte := (BitVec.ofBool b).setWidth 8 <<< j

theorem blockSteps_bitIn (j : Fin 8) (s : State) :
    blockSteps (bitIn j) s =
      { s.afterDraws 1 with
        clkQ := true
        acc := s.acc ||| sampledBit j.val (s.nthDraw 0)
        ev := s.ev ++ scanBitEvents j (s.nthDraw 0) } := by
  rw [← drawLevel_eq]
  simp [bitIn, scanBitEvents, sampledBit, performBlock, applyMicro, MicroOp.isSample, setPin, wait, sample, State.emit,
    State.setLatch, State.afterDraw, State.afterDraws, State.drawLevel]

/-- Eight sampled bits, the first one the least significant, make the byte of those bits. -/
theorem sampledBits_eq (b0 b1 b2 b3 b4 b5 b6 b7 : Bool) :
    (sampledBit 0 b0 ||| sampledBit 1 b1 ||| sampledBit 2 b2 ||| sampledBit 3 b3 ||| sampledBit 4 b4 |||
        sampledBit 5 b5 ||| sampledBit 6 b6 ||| sampledBit 7 b7) =
      byteOfBits [b0, b1, b2, b3, b4, b5, b6, b7] := by
  revert b0 b1 b2 b3 b4 b5 b6 b7
  decide

/-- One key-scan byte read into an empty accumulator (R143). -/
theorem blockSteps_scanByte (k : Fin 4) (s : State) (h : s.acc = 0x00) :
    blockSteps (scanByte k) s =
      { s.afterDraws 8 with
        clkQ := true
        keybuf := s.keybuf.set k.val (s.drawnByte 0)
        ev := s.ev ++ scanByteEvents k 0 s } := by
  have hd := sampledBits_eq (s.nthDraw 0) (s.nthDraw 1) (s.nthDraw 2) (s.nthDraw 3) (s.nthDraw 4) (s.nthDraw 5)
    (s.nthDraw 6) (s.nthDraw 7)
  have hn : ∀ (k n : Nat) (c : Bool) (a : Byte) (e : List Event),
      State.nthDraw { s.afterDraws k with clkQ := c, acc := a, ev := e } n = s.nthDraw (k + n) :=
    fun k n _ _ _ => nthDraw_afterDraws s k n
  have step : ∀ (j : Fin 8) (k : Nat) (c : Bool) (a : Byte) (e : List Event),
      blockSteps (bitIn j) { s.afterDraws k with clkQ := c, acc := a, ev := e } =
        { s.afterDraws (k + 1) with
          clkQ := true
          acc := a ||| sampledBit j.val (s.nthDraw k)
          ev := e ++ scanBitEvents j (s.nthDraw k) } := by
    intro j k c a e
    rw [blockSteps_bitIn, hn]
    simp [State.afterDraws, Nat.add_assoc]
  have h0 : s = { s.afterDraws 0 with clkQ := s.clkQ, acc := 0x00, ev := s.ev } := by
    rw [← h]
    simp [State.afterDraws]
  unfold scanByte
  simp only [List.flatMap_cons, List.flatMap_nil, List.append_nil, blockSteps_append]
  rw [h0]
  simp only [step]
  simp only [Fin.val_zero, Fin.val_one, show ((2 : Fin 8).val) = 2 from rfl, show ((3 : Fin 8).val) = 3 from rfl,
    show ((4 : Fin 8).val) = 4 from rfl, show ((5 : Fin 8).val) = 5 from rfl, show ((6 : Fin 8).val) = 6 from rfl,
    show ((7 : Fin 8).val) = 7 from rfl]
  rw [← h0]
  simp [performBlock, applyMicro, MicroOp.isSample, store, State.emit, scanByteEvents, State.drawnByte, h,
    State.afterDraws, hd]

/-- A state in the read phase, `n` levels drawn, with its key buffer and events. -/
def State.scanned (n : Nat) (k : Vector Byte 4) (e : List Event) (s : State) : State :=
  { s.afterDraws n with clkQ := true, keybuf := k, ev := e }

theorem drawnByte_afterDraws (s : State) (k n : Nat) : (s.afterDraws k).drawnByte n = s.drawnByte (k + n) := by
  simp only [State.drawnByte, nthDraw_afterDraws, Nat.add_assoc]

theorem blockSteps_scanned (i : Fin 4) (n : Nat) (k : Vector Byte 4) (e : List Event) {s : State} (h : s.acc = 0x00) :
    blockSteps (scanByte i) (s.scanned n k e) =
      s.scanned (n + 8) (k.set i.val (s.drawnByte n)) (e ++ scanByteEvents i n s) := by
  have hn : ∀ j, (s.scanned n k e).nthDraw j = (s.afterDraws n).nthDraw j := fun _ => rfl
  have hd : (s.scanned n k e).drawnByte 0 = s.drawnByte n := drawnByte_afterDraws s n 0
  have he : scanByteEvents i 0 (s.scanned n k e) = scanByteEvents i n s := by
    simp only [scanByteEvents, hd, hn, nthDraw_afterDraws, Nat.zero_add, Nat.add_zero]
  rw [blockSteps_scanByte i (s.scanned n k e) h, hd, he]
  simp only [State.scanned, State.afterDraws, List.drop_drop, Nat.add_assoc]

/-- The four bytes of the read phase (R140, R143). -/
theorem blockSteps_scanAll {s : State} (h : s.acc = 0x00) (hc : s.clkQ = true) :
    blockSteps (scanByte 0 ++ scanByte 1 ++ scanByte 2 ++ scanByte 3) s =
      s.scanned 32 #v[s.drawnByte 0, s.drawnByte 8, s.drawnByte 16, s.drawnByte 24]
        (s.ev ++ scanByteEvents 0 0 s ++ scanByteEvents 1 8 s ++ scanByteEvents 2 16 s ++ scanByteEvents 3 24 s) := by
  have h0 : s = s.scanned 0 s.keybuf s.ev := by
    simp only [State.scanned, State.afterDraws, List.drop_zero, Nat.add_zero]
    rw [← hc]
  have hk : (((s.keybuf.set 0 (s.drawnByte 0)).set 1 (s.drawnByte 8)).set 2 (s.drawnByte 16)).set 3 (s.drawnByte 24) =
      #v[s.drawnByte 0, s.drawnByte 8, s.drawnByte 16, s.drawnByte 24] := by
    ext i hi
    rcases i with _ | _ | _ | _ | i <;> simp at hi ⊢
    omega
  rw [blockSteps_append, blockSteps_append, blockSteps_append]
  conv_lhs => rw [h0]
  rw [blockSteps_scanned 0 _ _ _ h, blockSteps_scanned 1 _ _ _ h, blockSteps_scanned 2 _ _ _ h,
    blockSteps_scanned 3 _ _ _ h, ← hk]
  rfl

/-- The events of READ_KEYBOARD (R140). -/
def readKeyboardEvents (s : State) : List Event :=
  [.pin .stb false, .delay] ++ byteEvents Ser.readKeyScan ++ [.dir PinSet.dioOnly false, .delay]
    ++ scanByteEvents 0 0 s ++ scanByteEvents 1 8 s ++ scanByteEvents 2 16 s ++ scanByteEvents 3 24 s
    ++ [.dir PinSet.dioOnly true] ++ [.pin .stb true, .delay]

/-- What READ_KEYBOARD does to the block (R140, R143, R145). -/
theorem blockSteps_readKeyboard {s : State} (h : s.acc = 0x00) :
    blockSteps traceReadKeyboard s =
      { s.afterDraws 32 with
        stbQ := true, clkQ := true, dioQ := false, dioOe := true
        keybuf := #v[s.drawnByte 0, s.drawnByte 8, s.drawnByte 16, s.drawnByte 24]
        ev := s.ev ++ readKeyboardEvents s } := by
  have hpre : blockSteps (openSeq ++ byteSeq Ser.readKeyScan ++ [.setDir PinSet.dioOnly false, .wait]) s =
      { s with
        stbQ := false, clkQ := true, dioQ := false, dioOe := false
        ev := s.ev ++ ([.pin .stb false, .delay] ++ byteEvents Ser.readKeyScan
          ++ [.dir PinSet.dioOnly false, .delay]) } := by
    simp only [blockSteps_append, blockSteps_openSeq, blockSteps_byteSeq, blockSteps_cons, blockSteps_nil]
    simp [performBlock, applyMicro, MicroOp.isSample, setDir, wait, State.emit, State.setOe, PinSet.dioOnly]
    rfl
  have ht : traceReadKeyboard =
      (openSeq ++ byteSeq Ser.readKeyScan ++ [.setDir PinSet.dioOnly false, .wait])
        ++ (scanByte 0 ++ scanByte 1 ++ scanByte 2 ++ scanByte 3) ++ ([.setDir PinSet.dioOnly true] ++ closeSeq) := by
    simp only [traceReadKeyboard, List.append_assoc]
  have hdir : ∀ u : State, blockSteps [.setDir PinSet.dioOnly true] u =
      { u with dioOe := true, ev := u.ev ++ [.dir PinSet.dioOnly true] } := fun _ => rfl
  have hev : ∀ (k : Fin 4) (n : Nat) (q c d o : Bool) (e : List Event),
      scanByteEvents k n { s with stbQ := q, clkQ := c, dioQ := d, dioOe := o, ev := e } =
        scanByteEvents k n s := fun _ _ _ _ _ _ _ => rfl
  have hdb : ∀ (n : Nat) (q c d o : Bool) (e : List Event),
      State.drawnByte { s with stbQ := q, clkQ := c, dioQ := d, dioOe := o, ev := e } n = s.drawnByte n :=
    fun _ _ _ _ _ _ => rfl
  rw [ht, blockSteps_append, blockSteps_append (_ ++ _ ++ _) (_ ++ _ ++ _ ++ _), hpre,
    blockSteps_scanAll (by exact h) rfl, blockSteps_append, blockSteps_closeSeq, hdir]
  simp only [hev, hdb, readKeyboardEvents, State.scanned, List.append_assoc]
  rfl

/-! ### Counting events (70_reset_and_hazards.md R215) -/

theorem bitEvents_figures (b : Bool) :
    (bitEvents b).length = 6 ∧ (bitEvents b).countP (· == .delay) = 3 ∧
      (bitEvents b).countP (· == .pin .clk true) = 1 := by
  revert b
  decide

theorem byteEvents_figures (v : Byte) :
    (byteEvents v).length = 48 ∧ (byteEvents v).countP (· == .delay) = 24 ∧
      (byteEvents v).countP (· == .pin .clk true) = 8 := by
  simp only [byteEvents, bitsOfByte, List.flatMap_cons, List.flatMap_nil, List.length_append, List.countP_append,
    bitEvents_figures]
  exact ⟨rfl, rfl, rfl⟩

theorem scanBitEvents_figures (j : Fin 8) (b : Bool) :
    (scanBitEvents j b).length = 6 ∧ (scanBitEvents j b).countP (· == .delay) = 3 ∧
      (scanBitEvents j b).countP (· == .pin .clk true) = 1 := by
  revert j b
  decide

theorem scanByteEvents_figures (k : Fin 4) (n : Nat) (s : State) :
    (scanByteEvents k n s).length = 49 ∧ (scanByteEvents k n s).countP (· == .delay) = 24 ∧
      (scanByteEvents k n s).countP (· == .pin .clk true) = 8 := by
  simp only [scanByteEvents, List.length_append, List.countP_append, scanBitEvents_figures]
  exact ⟨rfl, rfl, rfl⟩

/-! ### Frames -/

theorem frameEvents_openSeq (f : FrameState) (h : f.stb = true) :
    [Event.pin .stb false, .delay].foldl frameEvent f = { f with stb := false, cur := [], bits := [] } := by
  simp [frameEvent, h]

theorem frameEvents_closeSeq (f : FrameState) (h : f.stb = false) :
    [Event.pin .stb true, .delay].foldl frameEvent f = { f with stb := true, out := f.out ++ [f.cur] } := by
  simp [frameEvent, h]

theorem frameEvents_bit (b : Bool) (f : FrameState) (hs : f.stb = false) (ho : f.dioOe = true) :
    (bitEvents b).foldl frameEvent f = { frameBit { f with dio := b } with clk := true } := by
  simp only [bitEvents, List.foldl_cons, List.foldl_nil, frameEvent, frameBit, hs, ho]
  simp only [Bool.not_false, Bool.and_true, Bool.and_false, Bool.false_eq_true, if_true,
    if_false]
  split <;> rfl

/-- A byte sent inside a transaction is received as that byte (R129, R130). -/
theorem frameEvents_byte (v : Byte) (f : FrameState) (hs : f.stb = false) (ho : f.dioOe = true) (hb : f.bits = []) :
    (byteEvents v).foldl frameEvent f =
      { f with clk := true, dio := v.getLsbD 7, cur := f.cur ++ [v], bits := [] } := by
  simp only [byteEvents, bitsOfByte, List.flatMap_cons, List.flatMap_nil, List.append_nil, List.foldl_append]
  rw [frameEvents_bit _ f hs ho]
  simp [frameEvents_bit, frameBit, hs, ho, hb]
  exact byteOfBits_bitsOfByte v

/-- The peer receives nothing while the block reads (R130: DIO is an input). -/
theorem frameEvents_scanByte (k : Fin 4) (n : Nat) (s : State) (f : FrameState) (hs : f.stb = false)
    (ho : f.dioOe = false) :
    (scanByteEvents k n s).foldl frameEvent f = { f with clk := true } := by
  have hbit : ∀ (j : Fin 8) (b : Bool) (f : FrameState), f.stb = false → f.dioOe = false →
      (scanBitEvents j b).foldl frameEvent f = { f with clk := true } := by
    intro j b f hs ho
    simp [scanBitEvents, frameEvent, hs, ho]
  simp only [scanByteEvents, List.foldl_append]
  rw [hbit _ _ _ hs ho]
  simp [hbit, hs, ho, frameEvent]

/-- The peer receives the read-key-scan command alone (42_read_keyboard.md R146). -/
theorem frameEvents_readKeyboard (s : State) (f : FrameState) (hs : f.stb = true) (ho : f.dioOe = true) :
    (readKeyboardEvents s).foldl frameEvent f =
      { f with clk := true, dio := false, cur := [0x42], bits := [], out := f.out ++ [[0x42]] } := by
  have hdir : ∀ (d : Bool) (es : List Event) (g : FrameState),
      (Event.dir PinSet.dioOnly d :: es).foldl frameEvent g = es.foldl frameEvent { g with dioOe := d } :=
    fun _ _ _ => rfl
  have hdelay : ∀ (es : List Event) (g : FrameState), (Event.delay :: es).foldl frameEvent g = es.foldl frameEvent g :=
    fun _ _ => rfl
  obtain ⟨a, b, c, d, e, g, h⟩ := f
  subst hs ho
  simp only [readKeyboardEvents, List.foldl_append]
  rw [frameEvents_openSeq _ rfl]
  have hby := frameEvents_byte Ser.readKeyScan ⟨false, b, c, true, [], [], h⟩ rfl rfl rfl
  simp only [hby, hdir, hdelay, List.foldl_nil, frameEvents_scanByte]
  rw [frameEvents_closeSeq _ rfl]
  rfl

/-- Bytes sent in a row inside a transaction are received as those bytes (R129, R130). -/
theorem frameEvents_bytes (vs : List Byte) (f : FrameState) (hs : f.stb = false) (ho : f.dioOe = true)
    (hb : f.bits = []) (hc : f.clk = true) :
    ∃ d, (vs.flatMap byteEvents).foldl frameEvent f = { f with dio := d, cur := f.cur ++ vs } := by
  induction vs generalizing f with
  | nil => exact ⟨f.dio, by simp⟩
  | cons v vs ih =>
    rw [List.flatMap_cons, List.foldl_append, frameEvents_byte v f hs ho hb]
    obtain ⟨d, hd⟩ := ih { f with clk := true, dio := v.getLsbD 7, cur := f.cur ++ [v], bits := [] } hs ho rfl rfl
    refine ⟨d, hd.trans ?_⟩
    obtain ⟨a, b, c, e, g, i, j⟩ := f
    subst hs ho hb hc
    simp

/-- A whole transaction of sent bytes is received as one frame of those bytes (R129, R130). -/
theorem frameEvents_txn (vs : List Byte) (f : FrameState) (hs : f.stb = true) (ho : f.dioOe = true)
    (hc : f.clk = true) :
    ∃ d, ([Event.pin .stb false, .delay] ++ vs.flatMap byteEvents ++ [Event.pin .stb true, .delay]).foldl frameEvent f =
      { f with dio := d, cur := vs, bits := [], out := f.out ++ [vs] } := by
  rw [List.foldl_append, List.foldl_append, frameEvents_openSeq f hs]
  obtain ⟨d, hd⟩ := frameEvents_bytes vs { f with stb := false, cur := [], bits := [] } rfl ho rfl hc
  refine ⟨d, ?_⟩
  rw [hd, frameEvents_closeSeq _ rfl]
  obtain ⟨a, b, c, e, g, h, j⟩ := f
  subst hs
  simp

end Sys2Proof.Machine
end

