-- ==== Sys2Proof/Laws/PeerRun.lean ====
section
/-! SUPPORT. The peer's side of a run: what it takes from each bit cell, from each byte, and from each end of a transaction (41_send_byte.md R129), as a fold of micro-operations over the state, the peer included. -/

namespace Sys2Proof.Machine

/-- The state after the peer's turn. -/
def State.settled (s : State) : State :=
  match peerTurn s with
  | .next t => t
  | .fault _ => s
  | .refused _ => s

theorem peerTurn_settled (s : State) : peerTurn s = .next s.settled := by
  obtain ⟨t, ht, -⟩ := peerTurn_next s
  simp only [State.settled, ht]

theorem settled_none {s : State} (h : s.serialIn = none) : s.settled = s := by
  simp only [State.settled, peerTurn_none h]

theorem settled_byte {s : State} {b : Byte} {i : Instr} {t : State} (h : s.serialIn = some b)
    (hd : decodeSerial b = .ok i) (ht : exec i { s with serialIn := none } = .next t) : s.settled = t := by
  simp only [State.settled, peerTurn, h, hd, ht]

/-- A list of micro-operations performed by the block and watched by the peer. -/
def liveSteps (ms : List MicroOp) (s : State) : State := ms.foldl (fun u m => (perform m u).settled) s

@[simp] theorem liveSteps_nil (s : State) : liveSteps [] s = s := rfl

@[simp] theorem liveSteps_cons (m : MicroOp) (ms : List MicroOp) (s : State) :
    liveSteps (m :: ms) s = liveSteps ms (perform m s).settled := rfl

theorem liveSteps_append (ms ns : List MicroOp) (s : State) :
    liveSteps (ms ++ ns) s = liveSteps ns (liveSteps ms s) := List.foldl_append

/-! ### The fields of acceptance and of the sequencer stand apart -/

theorem onPeer_withControl (f : PeerRegs → PeerRegs) (vi : ViolSet) (il bu : Bool) (co : BitVec 3) (aq : Byte)
    (ix : BitVec 10) (s : State) :
    (s.withControl vi il bu co aq ix).onPeer f = (s.onPeer f).withControl vi il bu co aq ix := by
  have hp : (s.withControl vi il bu co aq ix).peer = s.peer := rfl
  cases h : s.peer with
  | known r => rw [onPeer_known s f r h, onPeer_known _ f r (hp.trans h)]; rfl
  | undefined => rw [onPeer_undefined s f h, onPeer_undefined _ f (hp.trans h)]

theorem settled_withControl (vi : ViolSet) (il bu : Bool) (co : BitVec 3) (aq : Byte) (ix : BitVec 10) (s : State) :
    (s.withControl vi il bu co aq ix).settled = s.settled.withControl vi il bu co aq ix := by
  have hs : (s.withControl vi il bu co aq ix).serialIn = s.serialIn := rfl
  cases h : s.serialIn with
  | none => rw [settled_none h, settled_none (hs.trans h)]
  | some b =>
    cases hd : decodeSerial b with
    | error e =>
      simp only [State.settled, peerTurn, hs, h, hd]
      rfl
    | ok i =>
      obtain ⟨f, hf, -⟩ := exec_serial_onPeer hd
      rw [settled_byte h hd (hf _), settled_byte (hs.trans h) hd (hf _)]
      exact onPeer_withControl f vi il bu co aq ix { s with serialIn := none }

theorem takeByte_withControl (v : Byte) (r : PeerRegs) (vi : ViolSet) (il bu : Bool) (co : BitVec 3) (aq : Byte)
    (ix : BitVec 10) (s : State) :
    takeByte v r (s.withControl vi il bu co aq ix) = (takeByte v r s).withControl vi il bu co aq ix := by
  unfold takeByte
  cases r.phase <;> rfl

theorem takeBit_withControl (b : Bool) (r : PeerRegs) (vi : ViolSet) (il bu : Bool) (co : BitVec 3) (aq : Byte)
    (ix : BitVec 10) (s : State) :
    takeBit b r (s.withControl vi il bu co aq ix) = (takeBit b r s).withControl vi il bu co aq ix := by
  unfold takeBit
  split
  · exact takeByte_withControl _ _ _ _ _ _ _ _ _
  · rfl

theorem watch_withControl (vi : ViolSet) (il bu : Bool) (co : BitVec 3) (aq : Byte) (ix : BitVec 10) (s t : State) :
    watch (s.withControl vi il bu co aq ix) (t.withControl vi il bu co aq ix) =
      (watch s t).withControl vi il bu co aq ix := by
  have hp : (t.withControl vi il bu co aq ix).peer = t.peer := rfl
  have hf : strobeFell (s.withControl vi il bu co aq ix) (t.withControl vi il bu co aq ix) = strobeFell s t := rfl
  have hr : strobeRose (s.withControl vi il bu co aq ix) (t.withControl vi il bu co aq ix) = strobeRose s t := rfl
  have hc : clockRose (s.withControl vi il bu co aq ix) (t.withControl vi il bu co aq ix) = clockRose s t := rfl
  have hw : (t.withControl vi il bu co aq ix).wire .stb = t.wire .stb := rfl
  have hd : (t.withControl vi il bu co aq ix).dioOe = t.dioOe := rfl
  have hq : (t.withControl vi il bu co aq ix).dioQ = t.dioQ := rfl
  unfold watch
  rw [hp, hf, hr, hc, hw, hd, hq]
  cases t.peer with
  | undefined => rfl
  | known r =>
    simp only [takeBit_withControl]
    repeat' split
    all_goals rfl

theorem live_withControl (m : MicroOp) (vi : ViolSet) (il bu : Bool) (co : BitVec 3) (aq : Byte) (ix : BitVec 10)
    (s : State) :
    (perform m (s.withControl vi il bu co aq ix)).settled =
      (perform m s).settled.withControl vi il bu co aq ix := by
  unfold perform
  rw [performBlock_withControl, watch_withControl, settled_withControl]

theorem liveSteps_withControl (ms : List MicroOp) (vi : ViolSet) (il bu : Bool) (co : BitVec 3) (aq : Byte)
    (ix : BitVec 10) (s : State) :
    liveSteps ms (s.withControl vi il bu co aq ix) = (liveSteps ms s).withControl vi il bu co aq ix := by
  induction ms generalizing s with
  | nil => rfl
  | cons m ms ih => rw [liveSteps_cons, live_withControl, ih, liveSteps_cons]

theorem liveSteps_block (ms : List MicroOp) (s : State) :
    (liveSteps ms s).withoutPeer = (blockSteps ms s).withoutPeer := by
  induction ms generalizing s with
  | nil => rfl
  | cons m ms ih =>
    obtain ⟨t, ht, hp⟩ := peerTurn_next (perform m s)
    rw [peerTurn_settled] at ht
    cases ht
    have h := eq_withPeer_of_block (hp.block.trans (watch_withoutPeer s (performBlock m s)))
    rw [liveSteps_cons, ih, h, blockSteps_withPeer, withPeer_withoutPeer, blockSteps_cons]

theorem withControl_self (s : State) : s.withControl s.viol s.illegal s.busy s.curOp s.argQ s.idx = s := rfl

/-- A quiet busy block performs its next micro-operation, and the peer takes its turn. -/
theorem step_live {s : State} {m : MicroOp} (hb : s.busy = true) (hq : s.Quiet) (hm : s.currentMicro = some m) :
    step s =
      .next ((perform m s).settled.withControl s.viol s.illegal (s.idx.toNat + 1 != s.trace.length) s.curOp s.argQ
        (s.idx + 1)) := by
  rw [step_busy (rstLevel_quiet hq.1) hq.2 hb, afterRstLevel_quiet hq.1]
  simp only [busyTurn, sequencerStep, hm]
  have hadv : advance (perform m s) =
      (perform m s).withControl s.viol s.illegal (s.idx.toNat + 1 != s.trace.length) s.curOp s.argQ (s.idx + 1) := by
    have hw := eq_withPeer_of_block (watch_withoutPeer s (performBlock m s))
    unfold perform
    rw [hw]
    cases m with
    | setPin q v => cases q <;> rfl
    | setDir S d => rfl
    | wait => rfl
    | sample j => rfl
    | store k => rfl
  rw [hadv, peerTurn_settled, settled_withControl]

/-- A quiet busy block performs the micro-operations `ms` that come next in its trace, the peer watching. -/
theorem run_live (ms rest : List MicroOp) {s : State} (hb : s.busy = true) (hq : s.Quiet)
    (ht : s.trace.drop s.idx.toNat = ms ++ rest) (hne : ms ≠ []) :
    run ms.length s =
      .next ((liveSteps ms s).withControl s.viol s.illegal (!rest.isEmpty) s.curOp s.argQ
        (s.idx + BitVec.ofNat 10 ms.length)) := by
  induction ms generalizing s with
  | nil => exact absurd rfl hne
  | cons m ms ih =>
    have hm : s.currentMicro = some m := by
      have h0 : (s.trace.drop s.idx.toNat)[0]? = some m := by rw [ht]; rfl
      rw [List.getElem?_drop, Nat.add_zero] at h0
      exact h0
    have hlt := currentMicro_lt hm
    have hlen : s.trace.length - s.idx.toNat = ms.length + 1 + rest.length := by
      have := congrArg List.length ht
      simpa only [List.length_drop, List.length_append, List.length_cons] using this
    have hst := step_live hb hq hm
    rw [List.length_cons, run_succ _ hst]
    by_cases hms : ms = []
    · subst hms
      have hbz : (s.idx.toNat + 1 != s.trace.length) = !rest.isEmpty := by
        rw [List.length_nil] at hlen
        cases rest with
        | nil => rw [List.length_nil] at hlen; simp only [List.isEmpty_nil, Bool.not_true, bne_eq_false_iff_eq]; omega
        | cons r rs => rw [List.length_cons] at hlen; simp only [List.isEmpty_cons, Bool.not_false, bne_iff_ne]; omega
      rw [hbz]
      rfl
    · have hbt : (s.idx.toNat + 1 != s.trace.length) = true := by
        have : ms.length ≠ 0 := fun h => hms (List.length_eq_zero_iff.mp h)
        simp only [bne_iff_ne]
        omega
      have hqu : (perform m s).settled.Quiet := by
        obtain ⟨t, hts, hp⟩ := peerTurn_next (perform m s)
        rw [peerTurn_settled] at hts
        cases hts
        refine ⟨?_, hp.noByte⟩
        have hblk : (perform m s).settled.withoutPeer = (performBlock m s).withoutPeer :=
          hp.block.trans (watch_withoutPeer s (performBlock m s))
        rw [eq_withPeer_of_block hblk]
        exact (performBlock_frame m s).2.2.2.2.2.2.2.2.2.2.2.trans hq.1
      rw [hbt]
      generalize hu : (perform m s).settled = u at hqu
      have hdrop : (u.withControl s.viol s.illegal true s.curOp s.argQ (s.idx + 1)).trace.drop (s.idx + 1).toNat =
          ms ++ rest := by
        have htr : (u.withControl s.viol s.illegal true s.curOp s.argQ (s.idx + 1)).trace = s.trace := rfl
        rw [htr, idx_succ hlt, ← List.drop_drop, ht]
        rfl
      have h := ih (s := u.withControl s.viol s.illegal true s.curOp s.argQ (s.idx + 1)) rfl hqu hdrop hms
      have hidx : s.idx + 1 + BitVec.ofNat 10 ms.length = s.idx + BitVec.ofNat 10 (ms.length + 1) := by
        rw [BitVec.add_assoc, Nat.add_comm ms.length 1, BitVec.ofNat_add]
        rfl
      rw [h, ← hidx, liveSteps_withControl, liveSteps_cons, hu]
      rfl

/-- A host operation given to an idle quiet block is accepted, and its trace runs to its end, the peer watching. -/
theorem exec_live (op : Op) (arg : Byte) (ha : op.takesArg = true ∨ arg = 0x00) {s : State} (h : s.IdleQuiet) :
    exec (op.instr arg) s = .next (accept op arg s) ∧
      run (traceOf op arg).length (accept op arg s) =
        .next ((liveSteps (traceOf op arg) (checkViolations op s)).withControl (checkViolations op s).viol false false
          op.code arg (BitVec.ofNat 10 (traceOf op arg).length)) := by
  obtain ⟨t, he, -⟩ := exec_run op arg ha h
  refine ⟨he, ?_⟩
  have hqa : (accept op arg s).Quiet := by
    refine ⟨?_, (accept_serialIn op arg s).trans h.2.2⟩
    have := congrArg State.rstPlan (accept_withoutPeer op arg s)
    exact this.trans h.2.1
  have hd : (accept op arg s).trace.drop (accept op arg s).idx.toNat = traceOf op arg ++ [] := by
    rw [accept_trace, List.append_nil]
    rfl
  have hr := run_live (traceOf op arg) [] rfl hqa hd (traceOf_ne_nil op arg)
  have hidx : (accept op arg s).idx + BitVec.ofNat 10 (traceOf op arg).length =
      BitVec.ofNat 10 (traceOf op arg).length := BitVec.zero_add _
  have hac : accept op arg s =
      (checkViolations op s).withControl (checkViolations op s).viol false true op.code arg 0 := rfl
  rw [hr, hidx, hac, liveSteps_withControl]
  rfl

/-! ### Ends of a transaction, bits and bytes -/

/-- The state with its latches, its events and its peer exchanged. -/
def State.withWires (sq cq dq : Bool) (p : Peer) (e : List Event) (s : State) : State :=
  { s with stbQ := sq, clkQ := cq, dioQ := dq, peer := p, ev := e }

/-- A falling strobe begins a transaction (R129). -/
theorem liveSteps_openSeq {s : State} {r : PeerRegs} (hc : s.Configured) (hi : s.serialIn = none)
    (hs : s.stbQ = true) (hp : s.peer = .known r) :
    liveSteps openSeq s =
      s.withWires false s.clkQ s.dioQ (.known { r with phase := .selected, bits := [] })
        (s.ev ++ [.pin .stb false, .delay]) := by
  obtain ⟨h1, h2, h3⟩ := hc
  simp [openSeq, perform, performBlock, applyMicro, MicroOp.isSample, setPin, wait, State.emit, State.setLatch, watch,
    strobeFell, strobeRose, clockRose, State.wire, State.oe, State.latch, h1, h2, h3, hs, hp, settled_none, hi,
    State.withWires]
  cases s.clkQ <;> simp [settled_none]

/-- A rising strobe ends it. -/
theorem liveSteps_closeSeq {s : State} {r : PeerRegs} (hc : s.Configured) (hi : s.serialIn = none)
    (hs : s.stbQ = false) (hp : s.peer = .known r) :
    liveSteps closeSeq s =
      s.withWires true s.clkQ s.dioQ (.known { r with phase := .idle, bits := [] })
        (s.ev ++ [.pin .stb true, .delay]) := by
  obtain ⟨h1, h2, h3⟩ := hc
  simp [closeSeq, perform, performBlock, applyMicro, MicroOp.isSample, setPin, wait, State.emit, State.setLatch, watch,
    strobeFell, strobeRose, clockRose, State.wire, State.oe, State.latch, h1, h2, h3, hs, hp, settled_none, hi,
    State.withWires]

/-- A bit cell that does not complete a byte gives the peer one bit (R129). -/
theorem liveSteps_bit (b : Bool) {s : State} {r : PeerRegs} (hc : s.Configured) (hi : s.serialIn = none)
    (hs : s.stbQ = false) (hk : s.clkQ = true) (hp : s.peer = .known r) (hl : r.bits.length < 7) :
    liveSteps (bitOut b) s =
      s.withWires false true b (.known { r with bits := r.bits ++ [b] }) (s.ev ++ bitEvents b) := by
  obtain ⟨h1, h2, h3⟩ := hc
  have hl' : ¬ r.bits.length = 7 := by omega
  simp [bitOut, bitEvents, perform, performBlock, applyMicro, MicroOp.isSample, setPin, wait, State.emit,
    State.setLatch, watch, strobeFell, strobeRose, clockRose, State.wire, State.oe, State.latch, h1, h2, h3, hs, hk,
    hp, settled_none, hi, State.withWires, takeBit, hl']

/-- The bit cell that completes a byte gives the peer that byte; a byte it gives the peer as a command is executed. -/
theorem liveSteps_lastBit (b : Bool) {s : State} {r : PeerRegs} (hc : s.Configured) (hi : s.serialIn = none)
    (hs : s.stbQ = false) (hk : s.clkQ = true) (hp : s.peer = .known r) (hl : r.bits.length = 7) :
    liveSteps (bitOut b) s =
      liveSteps [.wait]
        (takeByte (byteOfBits (r.bits ++ [b])) { r with bits := [] }
          (s.withWires false true b (.known r) (s.ev ++ (bitEvents b).take 5))).settled := by
  obtain ⟨h1, h2, h3⟩ := hc
  simp [bitOut, bitEvents, perform, performBlock, applyMicro, MicroOp.isSample, setPin, wait, State.emit,
    State.setLatch, watch, strobeFell, strobeRose, clockRose, State.wire, State.oe, State.latch, h1, h2, h3, hs, hk,
    hp, settled_none, hi, State.withWires, takeBit, hl]

/-- A change that leaves strobe and clock on the wires as they were gives the peer nothing (R129). -/
theorem watch_same {before after : State} (hs : before.wire .stb = after.wire .stb)
    (hc : before.wire .clk = after.wire .clk) : watch before after = after := by
  unfold watch strobeFell strobeRose clockRose
  rw [hs, hc]
  split
  · rfl
  · cases after.wire .stb <;> cases after.wire .clk <;> rfl

/-- A `Wait` of a settled state only adds its event. -/
theorem liveSteps_wait {s : State} (hi : s.serialIn = none) : liveSteps [.wait] s = s.emit .delay := by
  have h : perform .wait s = s.emit .delay := watch_same rfl rfl
  rw [liveSteps_cons, liveSteps_nil, h, settled_none]
  exact hi

/-- The peer the byte comes to is the one whose registers are given. -/
theorem takeByte_withPeer (v : Byte) (r : PeerRegs) (p : Peer) (s : State) :
    takeByte v r (s.withPeer p s.serialIn) = takeByte v r s := by
  unfold takeByte
  cases r.phase <;> rfl

/-- What follows the last bit of a byte: the byte is the peer's, a command is executed, and the block waits once more. -/
theorem liveSteps_byte (v : Byte) {s : State} {r : PeerRegs} (hc : s.Configured) (hi : s.serialIn = none)
    (hs : s.stbQ = false) (hk : s.clkQ = true) (hp : s.peer = .known r) (hb : r.bits = []) :
    ∃ e, liveSteps (byteSeq v) s =
      liveSteps [.wait] (takeByte v r (s.withWires false true (v.getLsbD 7) (.known r) e)).settled := by
  have step : ∀ (b : Bool) (cq dq : Bool) (bs : List Bool) (e : List Event), cq = true → bs.length < 7 →
      liveSteps (bitOut b) (s.withWires false cq dq (.known { r with bits := bs }) e) =
        s.withWires false true b (.known { r with bits := bs ++ [b] }) (e ++ bitEvents b) := by
    intro b cq dq bs e hq hl
    have := liveSteps_bit b (s := s.withWires false cq dq (.known { r with bits := bs }) e) hc hi rfl hq rfl hl
    exact this
  have last : ∀ (b dq : Bool) (bs : List Bool) (e : List Event), bs.length = 7 →
      liveSteps (bitOut b) (s.withWires false true dq (.known { r with bits := bs }) e) =
        liveSteps [.wait] (takeByte (byteOfBits (bs ++ [b])) r
          (s.withWires false true b (.known r) (e ++ (bitEvents b).take 5))).settled := by
    intro b dq bs e hl
    have h := liveSteps_lastBit b (s := s.withWires false true dq (.known { r with bits := bs }) e) hc hi rfl rfl rfl hl
    have hr : ({ r with bits := [] } : PeerRegs) = r := by rw [← hb]
    rw [h, hr]
    exact congrArg (fun u => liveSteps [.wait] u.settled)
      (takeByte_withPeer _ _ _ (s.withWires false true b (.known r) (e ++ (bitEvents b).take 5)))
  have h0 : s = s.withWires false true s.dioQ (.known { r with bits := [] }) s.ev := by
    rw [← hb, State.withWires, ← hs, ← hk, ← hp]
  have hbits := byteOfBits_bitsOfByte v
  simp only [bitsOfByte] at hbits
  refine ⟨s.ev ++ bitEvents (v.getLsbD 0) ++ bitEvents (v.getLsbD 1) ++ bitEvents (v.getLsbD 2)
    ++ bitEvents (v.getLsbD 3) ++ bitEvents (v.getLsbD 4) ++ bitEvents (v.getLsbD 5) ++ bitEvents (v.getLsbD 6)
    ++ (bitEvents (v.getLsbD 7)).take 5, ?_⟩
  conv_lhs => rw [h0]
  simp only [byteSeq, bitsOfByte, List.flatMap_cons, List.flatMap_nil, List.append_nil, liveSteps_append]
  rw [step _ _ _ _ _ rfl (by simp), step _ _ _ _ _ rfl (by simp), step _ _ _ _ _ rfl (by simp),
    step _ _ _ _ _ rfl (by simp), step _ _ _ _ _ rfl (by simp), step _ _ _ _ _ rfl (by simp),
    step _ _ _ _ _ rfl (by simp), last _ _ _ _ rfl]
  simp only [List.nil_append, List.cons_append, hbits]

/-- SEND_BYTE v in an open transaction gives a known peer the byte v, and the block ends with no command byte waiting
(R125, R129). -/
theorem run_sendByte_live (v : Byte) {s : State} {r : PeerRegs} (h : s.InTransaction) (hp : s.peer = .known r)
    (hb : r.bits = []) :
    ∃ w t, exec (.sendByte v) s = .next (accept .sendByte v s) ∧ run 48 (accept .sendByte v s) = .next t ∧
      w.serialIn = none ∧ t.serialIn = none ∧ t.peer = (takeByte v r w).settled.peer := by
  obtain ⟨hq, hc, hs, hk, -⟩ := h
  have hcv : checkViolations .sendByte s = s := by
    simp [checkViolations, State.markIf, opensTransaction, hc.1, hs]
  obtain ⟨he, hr⟩ := exec_live .sendByte v (.inl rfl) hq
  rw [traceOf_length, hcv, show traceOf .sendByte v = byteSeq v from rfl] at hr
  obtain ⟨e, hby⟩ := liveSteps_byte v hc hq.2.2 hs hk hp hb
  rw [hby] at hr
  generalize hw : s.withWires false true (v.getLsbD 7) (.known r) e = w at hr
  have hwn : w.serialIn = none := by rw [← hw]; exact hq.2.2
  obtain ⟨x, hx, hpo⟩ := peerTurn_next (takeByte v r w)
  rw [peerTurn_settled] at hx
  cases hx
  rw [liveSteps_wait hpo.noByte] at hr
  exact ⟨w, _, he, hr, hwn, hpo.noByte, rfl⟩

/-- A command byte sent to a selected peer whose registers are known is executed (R187): `f` is what it does to them. -/
theorem liveSteps_command (v : Byte) {i : Instr} {f : PeerRegs → PeerRegs} (hd : decodeSerial v = .ok i)
    (hf : ∀ t : State, exec i t = .next (t.onPeer f)) {s : State} {r : PeerRegs} (hc : s.Configured)
    (hi : s.serialIn = none) (hs : s.stbQ = false) (hk : s.clkQ = true) (hp : s.peer = .known r) (hb : r.bits = [])
    (hr : r.phase = .selected) :
    ∃ e, liveSteps (byteSeq v) s = s.withWires false true (v.getLsbD 7) (.known (f r)) e := by
  obtain ⟨e, he⟩ := liveSteps_byte v hc hi hs hk hp hb
  have ht : ∀ u : State, takeByte v r u = { u with peer := .known r, serialIn := some v } := by
    intro u
    simp only [takeByte, hr]
  rw [he, ht, settled_byte rfl hd (hf _), liveSteps_wait (by rw [onPeer_serialIn])]
  refine ⟨e ++ [.delay], ?_⟩
  rw [onPeer_known _ f r rfl]
  unfold State.emit State.withWires
  simp only [hi]

/-- A data byte sent to an addressed peer whose registers are known (20_memory.md R69). -/
theorem liveSteps_data (v : Byte) {s : State} {r : PeerRegs} {n : Nat} (hc : s.Configured)
    (hi : s.serialIn = none) (hs : s.stbQ = false) (hk : s.clkQ = true) (hp : s.peer = .known r) (hb : r.bits = [])
    (hr : r.phase = .addressed n) :
    ∃ e, liveSteps (byteSeq v) s = s.withWires false true (v.getLsbD 7) (.known (dataByte n v r)) e := by
  obtain ⟨e, he⟩ := liveSteps_byte v hc hi hs hk hp hb
  have ht : ∀ u : State, takeByte v r u = { u with peer := .known (dataByte n v r) } := by
    intro u
    simp only [takeByte, hr]
  rw [he, ht, settled_none (by exact hi), liveSteps_wait (by exact hi)]
  exact ⟨e ++ [.delay], rfl⟩

theorem dataByte_bits (n : Nat) (v : Byte) (r : PeerRegs) : (dataByte n v r).bits = r.bits := by
  unfold dataByte
  split
  · split <;> rfl
  · rfl

theorem dataByte_phase (n : Nat) (v : Byte) (r : PeerRegs) : (dataByte n v r).phase = .addressed (n + 1) := by
  unfold dataByte
  split
  · split <;> rfl
  · rfl

/-- `k` equal data bytes after `n` others. -/
def dataBytes (v : Byte) : Nat → Nat → PeerRegs → PeerRegs
  | 0, _, r => r
  | k + 1, n, r => dataBytes v k (n + 1) (dataByte n v r)

theorem dataBytes_eq_foldl (v : Byte) (k n : Nat) (r : PeerRegs) :
    dataBytes v k n r =
      ((List.replicate k v).foldl (fun (p : Nat × PeerRegs) w => (p.1 + 1, dataByte p.1 w p.2)) (n, r)).2 := by
  induction k generalizing n r with
  | zero => rfl
  | succ k ih => rw [List.replicate_succ, List.foldl_cons, dataBytes, ih]

theorem dataByte_mode (n : Nat) (v : Byte) (r : PeerRegs) : (dataByte n v r).mode = r.mode := by
  unfold dataByte
  split
  · split <;> rfl
  · rfl

theorem dataBytes_mode (v : Byte) (k n : Nat) (r : PeerRegs) : (dataBytes v k n r).mode = r.mode := by
  induction k generalizing n r with
  | zero => rfl
  | succ k ih => rw [dataBytes, ih, dataByte_mode]

/-- A run of equal data bytes. -/
theorem liveSteps_byteRun (v : Byte) (k : Nat) {s : State} {r : PeerRegs} {n : Nat} (hc : s.Configured)
    (hi : s.serialIn = none) (hs : s.stbQ = false) (hk : s.clkQ = true) (hp : s.peer = .known r) (hb : r.bits = [])
    (hr : r.phase = .addressed n) :
    ∃ d e, liveSteps (byteRun v k) s = s.withWires false true d (.known (dataBytes v k n r)) e := by
  induction k generalizing s r n with
  | zero =>
    refine ⟨s.dioQ, s.ev, ?_⟩
    unfold State.withWires dataBytes
    rw [← hs, ← hk, ← hp]
    rfl
  | succ k ih =>
    obtain ⟨e, he⟩ := liveSteps_data v hc hi hs hk hp hb hr
    obtain ⟨d, e', h⟩ := ih (s := s.withWires false true (v.getLsbD 7) (.known (dataByte n v r)) e) hc hi rfl rfl rfl
      ((dataByte_bits n v r).trans hb) (dataByte_phase n v r)
    refine ⟨d, e', ?_⟩
    rw [byteRun, liveSteps_append, he, h]
    rfl

/-- The state between two transactions that the peer watches, ready for the next one. -/
structure State.Between (r : PeerRegs) (s : State) : Prop where
  configured : s.Configured
  noByte : s.serialIn = none
  stb : s.stbQ = true
  clk : s.clkQ = true
  peer : s.peer = .known r

theorem withWires_withWires (a b c a' b' c' : Bool) (p p' : Peer) (e e' : List Event) (s : State) :
    (s.withWires a b c p e).withWires a' b' c' p' e' = s.withWires a' b' c' p' e' := rfl

theorem between_withWires {s : State} {r : PeerRegs} (h : s.Between r) (d : Bool) (q : PeerRegs) (e : List Event) :
    (s.withWires true true d (.known q) e).Between q :=
  ⟨h.configured, h.noByte, rfl, rfl, rfl⟩

/-- A transaction of one command byte leaves the registers as that command does, and the peer idle (R129, R187). -/
theorem liveSteps_commandTxn (v : Byte) {i : Instr} {f : PeerRegs → PeerRegs} (hd : decodeSerial v = .ok i)
    (hf : ∀ t : State, exec i t = .next (t.onPeer f)) {s : State} {r : PeerRegs} (h : s.Between r) :
    ∃ d e, liveSteps (openSeq ++ byteSeq v ++ closeSeq) s =
      s.withWires true true d
        (.known { f { r with phase := .selected, bits := [] } with phase := .idle, bits := [] }) e := by
  rw [liveSteps_append, liveSteps_append, liveSteps_openSeq h.configured h.noByte h.stb h.peer, h.clk]
  generalize hu : s.withWires false true s.dioQ (.known { r with phase := .selected, bits := [] })
    (s.ev ++ [.pin .stb false, .delay]) = u
  have hc : u.Configured := by rw [← hu]; exact h.configured
  have hi : u.serialIn = none := by rw [← hu]; exact h.noByte
  have hs : u.stbQ = false := by rw [← hu]; rfl
  have hk : u.clkQ = true := by rw [← hu]; rfl
  have hp : u.peer = .known { r with phase := .selected, bits := [] } := by rw [← hu]; rfl
  obtain ⟨e, he⟩ := liveSteps_command v hd hf hc hi hs hk hp rfl rfl
  rw [he, ← hu, withWires_withWires]
  refine ⟨v.getLsbD 7, e ++ [.pin .stb true, .delay], ?_⟩
  exact liveSteps_closeSeq h.configured h.noByte rfl rfl

/-- A transaction of a set-address byte and `k` equal data bytes (20_memory.md R69, R129). -/
theorem liveSteps_dataTxn (v w : Byte) (k : Nat) {a : BitVec 4} (hd : decodeSerial v = .ok (.serSetAddress a))
    {s : State} {r : PeerRegs} (h : s.Between r) :
    ∃ d e, liveSteps (openSeq ++ byteSeq v ++ byteRun w k ++ closeSeq) s =
      s.withWires true true d
        (.known { dataBytes w k 0 { r with ptr := .cell a, phase := .addressed 0, bits := [] } with
          phase := .idle, bits := [] }) e := by
  rw [liveSteps_append, liveSteps_append, liveSteps_append,
    liveSteps_openSeq h.configured h.noByte h.stb h.peer, h.clk]
  generalize hu : s.withWires false true s.dioQ (.known { r with phase := .selected, bits := [] })
    (s.ev ++ [.pin .stb false, .delay]) = u
  have hc : u.Configured := by rw [← hu]; exact h.configured
  have hi : u.serialIn = none := by rw [← hu]; exact h.noByte
  have hs : u.stbQ = false := by rw [← hu]; rfl
  have hk : u.clkQ = true := by rw [← hu]; rfl
  have hp : u.peer = .known { r with phase := .selected, bits := [] } := by rw [← hu]; rfl
  obtain ⟨e, he⟩ := liveSteps_command v hd (fun _ => rfl) hc hi hs hk hp rfl rfl
  rw [he, ← hu, withWires_withWires]
  obtain ⟨d, e', h'⟩ := liveSteps_byteRun w k (n := 0)
    (s := s.withWires false true (v.getLsbD 7)
      (.known { r with ptr := .cell a, phase := .addressed 0, bits := [] }) e)
    h.configured h.noByte rfl rfl rfl rfl rfl
  rw [h', withWires_withWires]
  refine ⟨d, e' ++ [.pin .stb true, .delay], ?_⟩
  exact liveSteps_closeSeq h.configured h.noByte rfl rfl

end Sys2Proof.Machine
end

