-- ==== Sys2Proof/Laws/Cycle.lean ====
section
/-! SUPPORT. The clock-edge layer beside the step: the fields that time moves stand apart from what a micro-operation and the peer do, and a trace lasts as many edges as its micro-operations do (10_state.md R45, R49). -/

namespace Sys2Proof.Machine

/-- The state with the fields of the clock-edge layer exchanged. -/
def State.withClock (dl : Nat) (sy : Sync) (dp : List Bool) (dr : Nat) (s : State) : State :=
  { s with dly := dl, sync := sy, dioPlan := dp, draws := dr }

theorem eq_withClock {s t : State} (h : s.withoutClock = t.withoutClock) :
    s = t.withClock s.dly s.sync s.dioPlan s.draws := by
  cases s
  cases t
  simp only [State.withoutClock, State.withClock, State.mk.injEq] at h ⊢
  tauto

@[simp] theorem withClock_withoutClock (dl : Nat) (sy : Sync) (dp : List Bool) (dr : Nat) (s : State) :
    (s.withClock dl sy dp dr).withoutClock = s.withoutClock := rfl

theorem applyMicro_withClock (b : Bool) (m : MicroOp) (dl : Nat) (sy : Sync) (dp : List Bool) (dr : Nat) (s : State) :
    applyMicro b m (s.withClock dl sy dp dr) = (applyMicro b m s).withClock dl sy dp dr := by
  cases m with
  | setPin q v => cases q <;> rfl
  | setDir S d => rfl
  | wait => rfl
  | sample j => rfl
  | store k => rfl

theorem onPeer_withClock (f : PeerRegs → PeerRegs) (dl : Nat) (sy : Sync) (dp : List Bool) (dr : Nat) (s : State) :
    (s.withClock dl sy dp dr).onPeer f = (s.onPeer f).withClock dl sy dp dr := by
  have hp : (s.withClock dl sy dp dr).peer = s.peer := rfl
  cases h : s.peer with
  | known r => rw [onPeer_known s f r h, onPeer_known _ f r (hp.trans h)]; rfl
  | undefined => rw [onPeer_undefined s f h, onPeer_undefined _ f (hp.trans h)]

theorem settled_withClock (dl : Nat) (sy : Sync) (dp : List Bool) (dr : Nat) (s : State) :
    (s.withClock dl sy dp dr).settled = s.settled.withClock dl sy dp dr := by
  have hs : (s.withClock dl sy dp dr).serialIn = s.serialIn := rfl
  cases h : s.serialIn with
  | none => rw [settled_none h, settled_none (hs.trans h)]
  | some b =>
    cases hd : decodeSerial b with
    | error e =>
      simp only [State.settled, peerTurn, hs, h, hd]
      rfl
    | ok i =>
      obtain ⟨f, hf, -⟩ := exec_serial_onPeer hd
      rw [settled_byte h hd (hf _), settled_byte (hs.trans h) hd (hf _)]
      exact onPeer_withClock f dl sy dp dr { s with serialIn := none }

theorem takeByte_withClock (v : Byte) (r : PeerRegs) (dl : Nat) (sy : Sync) (dp : List Bool) (dr : Nat) (s : State) :
    takeByte v r (s.withClock dl sy dp dr) = (takeByte v r s).withClock dl sy dp dr := by
  unfold takeByte
  cases r.phase <;> rfl

theorem takeBit_withClock (b : Bool) (r : PeerRegs) (dl : Nat) (sy : Sync) (dp : List Bool) (dr : Nat) (s : State) :
    takeBit b r (s.withClock dl sy dp dr) = (takeBit b r s).withClock dl sy dp dr := by
  unfold takeBit
  split
  · exact takeByte_withClock _ _ _ _ _ _ _
  · rfl

theorem watch_withClock (dl dl' : Nat) (sy sy' : Sync) (dp dp' : List Bool) (dr dr' : Nat) (s t : State) :
    watch (s.withClock dl sy dp dr) (t.withClock dl' sy' dp' dr') = (watch s t).withClock dl' sy' dp' dr' := by
  have hp : (t.withClock dl' sy' dp' dr').peer = t.peer := rfl
  have hf : strobeFell (s.withClock dl sy dp dr) (t.withClock dl' sy' dp' dr') = strobeFell s t := rfl
  have hr : strobeRose (s.withClock dl sy dp dr) (t.withClock dl' sy' dp' dr') = strobeRose s t := rfl
  have hc : clockRose (s.withClock dl sy dp dr) (t.withClock dl' sy' dp' dr') = clockRose s t := rfl
  have hw : (t.withClock dl' sy' dp' dr').wire .stb = t.wire .stb := rfl
  have hd : (t.withClock dl' sy' dp' dr').dioOe = t.dioOe := rfl
  have hq : (t.withClock dl' sy' dp' dr').dioQ = t.dioQ := rfl
  unfold watch
  rw [hp, hf, hr, hc, hw, hd, hq]
  cases t.peer with
  | undefined => rfl
  | known r =>
    simp only [takeBit_withClock]
    repeat' split
    all_goals rfl

/-- A loaded or an unloaded delay counter is a field of the clock-edge layer. -/
theorem loadDelay_eq (s : State) :
    loadDelay s =
      s.withClock (if s.busy && s.currentMicro == some .wait then delayCycles - 1 else s.dly) s.sync s.dioPlan
        s.draws := by
  unfold loadDelay
  cases s.busy && s.currentMicro == some MicroOp.wait with
  | true => simp only [if_true]; rfl
  | false => simp only [Bool.false_eq_true, if_false]; rfl

theorem advance_withClock (dl : Nat) (sy : Sync) (dp : List Bool) (dr : Nat) (s : State) :
    advance (s.withClock dl sy dp dr) = (advance s).withClock dl sy dp dr := rfl

theorem shiftSync_eq (s : State) :
    shiftSync s = s.withClock s.dly ⟨s.padLevel, s.sync.first⟩ s.dioPlan.tail (s.draws + 1) := rfl

/-- An edge of a quiet busy block. -/
theorem clockEdge_busy {s : State} (hb : s.busy = true) (hq : s.Quiet) :
    clockEdge s = busyEdge s.sync.second (shiftSync s) := by
  simp [clockEdge, rstLevel_quiet hq.1, hq.2, hb, afterRstLevel_quiet hq.1]

/-- An edge inside a `Wait` counts down, and moves nothing else but the synchroniser and the draws (R45). -/
theorem clockEdge_waiting {s : State} (hb : s.busy = true) (hq : s.Quiet) (hm : s.currentMicro = some .wait)
    (hd : s.dly ≠ 0) :
    clockEdge s =
      .next (s.withClock (s.dly - 1) ⟨s.padLevel, s.sync.first⟩ s.dioPlan.tail (s.draws + 1)) := by
  have hm' : (shiftSync s).currentMicro = some .wait := hm
  rw [clockEdge_busy hb hq]
  simp only [busyEdge, hm']
  rw [if_pos]
  · rfl
  · show (true && s.dly != 0) = true
    simpa using hd

/-- An edge that completes a micro-operation does what the micro-operation does, the peer watching, and loads the delay
of a following `Wait` (R45, R49). -/
theorem clockEdge_completing {s : State} {m : MicroOp} (hb : s.busy = true) (hq : s.Quiet)
    (hm : s.currentMicro = some m) (hd : m.isWait = true → s.dly = 0) :
    ∃ dl sy dp dr, clockEdge s =
      .next ((advance (watch s (applyMicro s.sync.second m s))).settled.withClock dl sy dp dr) ∧
        ((advance (watch s (applyMicro s.sync.second m s))).busy = true →
          (advance (watch s (applyMicro s.sync.second m s))).currentMicro = some .wait → dl = delayCycles - 1) := by
  have hm' : (shiftSync s).currentMicro = some m := hm
  have hw : (m.isWait && (shiftSync s).dly != 0) = false := by
    cases h : m.isWait with
    | false => rfl
    | true => have := hd h; show (true && s.dly != 0) = false; simp [this]
  have hs : advance (watch (shiftSync s) (applyMicro s.sync.second m (shiftSync s))) =
      (advance (watch s (applyMicro s.sync.second m s))).withClock s.dly ⟨s.padLevel, s.sync.first⟩ s.dioPlan.tail
        (s.draws + 1) := by
    rw [shiftSync_eq, applyMicro_withClock, watch_withClock, advance_withClock]
  generalize hu : advance (watch s (applyMicro s.sync.second m s)) = u at hs
  refine ⟨if u.busy && u.currentMicro == some .wait then delayCycles - 1 else s.dly, ⟨s.padLevel, s.sync.first⟩,
    s.dioPlan.tail, s.draws + 1, ?_, ?_⟩
  · rw [clockEdge_busy hb hq]
    simp only [busyEdge, hm', hw, Bool.false_eq_true, if_false, hs]
    rw [peerTurn_settled, loadDelay_eq, settled_withClock, settled_withClock]
    generalize delayCycles - 1 = D
    rfl
  · intro hbu hmu
    exact if_pos (by rw [hbu, hmu]; rfl)

theorem dly_of_block {s t : State} (h : t.withoutPeer = s.withoutPeer) : t.dly = s.dly := by
  rw [eq_withPeer_of_block h]
  rfl

theorem peerTurn_dly {s t : State} (h : peerTurn s = .next t) : t.dly = s.dly := by
  obtain ⟨u, hu, hp⟩ := peerTurn_next s
  rw [h] at hu
  cases hu
  exact dly_of_block hp.block

theorem applyMicro_dly (b : Bool) (m : MicroOp) (s : State) : (applyMicro b m s).dly = s.dly := by
  cases m with
  | setPin q v => cases q <;> rfl
  | setDir S d => rfl
  | wait => rfl
  | sample j => rfl
  | store k => rfl

theorem hostTurn_dly {s t : State} (hb : s.busy = false) (h : hostTurn s = .next t) : t.dly = s.dly := by
  cases hp : s.port with
  | nil =>
    simp only [hostTurn, hp] at h
    cases h
    rfl
  | cons w ws =>
    cases hl : legal w with
    | true =>
      obtain ⟨op, -, ht⟩ := hostTurn_legal hp hl hb
      rw [ht] at h
      cases h
      exact accept_dly op w.arg _
    | false =>
      rw [hostTurn_illegal hp hl hb] at h
      cases h
      rfl

/-- What a busy block's edge can do to the delay counter: leave it, count it down, or load it (R45). -/
theorem busyEdge_dly {b : Bool} {s t : State} (h : busyEdge b s = .next t) :
    t.dly = s.dly ∨ t.dly = s.dly - 1 ∨ t.dly = delayCycles - 1 := by
  unfold busyEdge at h
  split at h
  · cases h
  · next m _ =>
    split at h
    · cases h
      exact .inr (.inl rfl)
    · generalize hu : advance (watch s (applyMicro b m s)) = u at h
      have hd : u.dly = s.dly := by
        rw [← hu]
        exact (dly_of_block (watch_withoutPeer s (applyMicro b m s))).trans (applyMicro_dly b m s)
      rw [peerTurn_dly h, loadDelay_eq, ← hd]
      generalize delayCycles - 1 = D
      cases u.busy && u.currentMicro == some MicroOp.wait with
      | true => exact .inr (.inr rfl)
      | false => exact .inl rfl

/-- What an edge can do to the delay counter: leave it, count it down, load it, or reset it (R45). -/
theorem clockEdge_dly {s t : State} (h : clockEdge s = .next t) :
    t.dly = s.dly ∨ t.dly = s.dly - 1 ∨ t.dly = delayCycles - 1 ∨ t.dly = 0 := by
  have hs : (shiftSync s.afterRstLevel).dly = s.dly := rfl
  have hbu : (shiftSync s.afterRstLevel).busy = s.busy := rfl
  unfold clockEdge at h
  generalize shiftSync s.afterRstLevel = u at h hs hbu
  rw [← hs]
  split at h
  · cases h
    exact .inr (.inr (.inr rfl))
  · split at h
    · exact .inl (peerTurn_dly h)
    · cases hb : s.busy with
      | true =>
        rw [hb, if_pos rfl] at h
        rcases busyEdge_dly h with h | h | h
        · exact .inl h
        · exact .inr (.inl h)
        · exact .inr (.inr (.inl h))
      | false =>
        rw [hb, if_neg (by decide)] at h
        exact .inl (hostTurn_dly (hbu.trans hb) h)

/-- A step, which has no time, leaves the delay counter or resets it. -/
theorem step_dly {s t : State} (h : step s = .next t) : t.dly = s.dly ∨ t.dly = 0 := by
  rcases step_cases h with ⟨-, rfl⟩ | ⟨-, -, hp⟩ | ⟨-, -, -, m, -, hp⟩ | ⟨-, -, -, -, rfl⟩ |
    ⟨-, -, -, w, ws, -, -, op, -, rfl⟩ | ⟨-, -, -, w, ws, -, -, rfl⟩
  · exact .inr rfl
  · exact .inl ((dly_of_block hp.block).trans rfl)
  · refine .inl ((dly_of_block hp.block).trans ((dly_of_block (advance_perform m s.afterRstLevel)).trans ?_))
    cases m with
    | setPin q v => cases q <;> rfl
    | setDir S d => rfl
    | wait => rfl
    | sample j => rfl
    | store k => rfl
  · exact .inl rfl
  · exact .inl (accept_dly op w.arg _)
  · exact .inl rfl

/-! ### Runs of edges -/

theorem clockRun_succ {s t : State} (n : Nat) (h : clockEdge s = .next t) : clockRun (n + 1) s = clockRun n t := by
  simp only [clockRun, h]

theorem clockRun_add {s t : State} (m n : Nat) (h : clockRun m s = .next t) : clockRun (m + n) s = clockRun n t := by
  induction m generalizing s with
  | zero => cases h; rw [Nat.zero_add]
  | succ m ih =>
    rw [Nat.add_right_comm]
    simp only [clockRun] at h ⊢
    cases hs : clockEdge s with
    | next u => rw [hs] at h; exact ih h
    | fault f => rw [hs] at h; cases h
    | refused r => rw [hs] at h; cases h

theorem delayCycles_pos : 0 < delayCycles := by
  have h : coversDelay leastDelayCycles = true := Nat.find_spec coversDelay_some
  have hne : leastDelayCycles ≠ 0 := by
    intro h0
    rw [h0] at h
    have := of_decide_eq_true h
    simp only [Config.tDMinMicroseconds, fClk] at this
    omega
  exact Nat.add_pos_left (Nat.pos_of_ne_zero hne) _

theorem delayCycles_succ : delayCycles = delayCycles - 1 + 1 := (Nat.sub_add_cancel delayCycles_pos).symm

theorem fields_of_withoutClock {s t : State} (h : t.withoutClock = s.withoutClock) :
    t.busy = s.busy ∧ t.rstPlan = s.rstPlan ∧ t.serialIn = s.serialIn ∧ t.currentMicro = s.currentMicro ∧
      t.rest = s.rest := by
  rw [eq_withClock h]
  exact ⟨rfl, rfl, rfl, rfl, rfl⟩

/-- Edges inside a `Wait`, as many as the delay counter holds. -/
theorem clockRun_waiting (n : Nat) {s : State} (hb : s.busy = true) (hq : s.Quiet)
    (hm : s.currentMicro = some .wait) (hn : n ≤ s.dly) :
    ∃ t, clockRun n s = .next t ∧ t.withoutClock = s.withoutClock ∧ t.dly = s.dly - n := by
  induction n generalizing s with
  | zero => exact ⟨s, rfl, rfl, rfl⟩
  | succ n ih =>
    have he := clockEdge_waiting hb hq hm (by omega)
    generalize hu : s.withClock (s.dly - 1) ⟨s.padLevel, s.sync.first⟩ s.dioPlan.tail (s.draws + 1) = u at he
    have hw : u.withoutClock = s.withoutClock := by rw [← hu]; rfl
    have hd : u.dly = s.dly - 1 := by rw [← hu]; rfl
    obtain ⟨f1, f2, f3, f4, -⟩ := fields_of_withoutClock hw
    obtain ⟨t, ht, htw, htd⟩ := ih (f1.trans hb) ⟨f2.trans hq.1, f3.trans hq.2⟩ (f4.trans hm) (by omega)
    exact ⟨t, (clockRun_succ n he).trans ht, htw.trans hw, by omega⟩

/-- A micro-operation's edges: the block stays as it is up to the last of them, which performs it. The next `Wait` is
then loaded (R45, R49). -/
theorem clockRun_micro {s : State} {m : MicroOp} (hb : s.busy = true) (hq : s.Quiet) (hm : s.currentMicro = some m)
    (hd : m.isWait = true → s.dly = delayCycles - 1) :
    (∀ n, n < microCycles m → ∃ u, clockRun n s = .next u ∧ u.withoutClock = s.withoutClock) ∧
      ∃ (t u : State), clockRun (microCycles m) s = .next t ∧ u.withoutClock = s.withoutClock ∧
        (m.isWait = false → u = s) ∧
        t.withoutClock = (advance (watch u (applyMicro u.sync.second m u))).settled.withoutClock ∧
        (t.busy = true → t.currentMicro = some .wait → t.dly = delayCycles - 1) := by
  have fin : ∀ u : State, u.busy = true → u.Quiet → u.currentMicro = some m → (m.isWait = true → u.dly = 0) →
      ∃ t, clockEdge u = .next t ∧
        t.withoutClock = (advance (watch u (applyMicro u.sync.second m u))).settled.withoutClock ∧
        (t.busy = true → t.currentMicro = some .wait → t.dly = delayCycles - 1) := by
    intro u hbu hqu hmu hdu
    obtain ⟨dl, sy, dp, dr, he, hl⟩ := clockEdge_completing hbu hqu hmu hdu
    refine ⟨_, he, rfl, ?_⟩
    generalize advance (watch u (applyMicro u.sync.second m u)) = v at hl
    have hv : v.settled = v.withPeer v.settled.peer v.settled.serialIn := by
      obtain ⟨x, hx, hp⟩ := peerTurn_next v
      rw [peerTurn_settled] at hx
      cases hx
      exact eq_withPeer_of_block hp.block
    rw [hv]
    exact hl
  cases hw : m.isWait with
  | false =>
    have hc : microCycles m = 1 := by rw [microCycles, hw, if_neg (by decide)]
    rw [hc]
    refine ⟨fun n hn => ?_, ?_⟩
    · obtain rfl : n = 0 := by omega
      exact ⟨s, rfl, rfl⟩
    · obtain ⟨t, ht, h1, h2⟩ := fin s hb hq hm (by rw [hw]; intro h; cases h)
      exact ⟨t, s, (clockRun_succ 0 ht).trans rfl, rfl, fun _ => rfl, h1, h2⟩
  | true =>
    obtain rfl : m = .wait := by cases m <;> first | rfl | cases hw
    have hc : microCycles .wait = delayCycles - 1 + 1 := (if_pos rfl).trans delayCycles_succ
    have hds := hd hw
    rw [hc]
    refine ⟨fun n hn => ?_, ?_⟩
    · obtain ⟨t, ht, h1, -⟩ := clockRun_waiting n hb hq hm (by omega)
      exact ⟨t, ht, h1⟩
    · obtain ⟨u, hu, h1, h2⟩ := clockRun_waiting (delayCycles - 1) hb hq hm (by omega)
      obtain ⟨f1, f2, f3, f4, -⟩ := fields_of_withoutClock h1
      obtain ⟨t, ht, g1, g2⟩ := fin u (f1.trans hb) ⟨f2.trans hq.1, f3.trans hq.2⟩ (f4.trans hm)
        (fun _ => by omega)
      exact ⟨t, u, (clockRun_add _ 1 hu).trans ((clockRun_succ 0 ht).trans rfl), h1, fun h => (by cases h), g1, g2⟩

/-- What is left of the trace after a micro-operation's edges. -/
theorem completed_fields {s u t : State} {m : MicroOp} (hb : s.busy = true) (hq : s.Quiet)
    (hm : s.currentMicro = some m) (hu : u.withoutClock = s.withoutClock)
    (ht : t.withoutClock = (advance (watch u (applyMicro u.sync.second m u))).settled.withoutClock) :
    t.Quiet ∧ s.rest = m :: t.rest ∧ t.busy = !t.rest.isEmpty := by
  obtain ⟨f1, f2, f3, f4, f5⟩ := fields_of_withoutClock hu
  obtain ⟨g1, g2, g3, g4, g5⟩ := fields_of_withoutClock ht
  obtain ⟨x, hx, hp⟩ := peerTurn_next (advance (watch u (applyMicro u.sync.second m u)))
  rw [peerTurn_settled] at hx
  cases hx
  generalize hy : (advance (watch u (applyMicro u.sync.second m u))).settled = y at *
  have hblk : y.withoutPeer.withoutClock =
      (advance (perform m { u with dioPlan := u.sync.second :: u.dioPlan })).withoutPeer.withoutClock := by
    rw [hp.block]
    have h1 := eq_withPeer_of_block (watch_withoutPeer u (applyMicro u.sync.second m u))
    have h2 := eq_withPeer_of_block (watch_withoutPeer { u with dioPlan := u.sync.second :: u.dioPlan }
      (performBlock m { u with dioPlan := u.sync.second :: u.dioPlan }))
    unfold perform
    rw [h1, h2]
    cases m with
    | setPin q v => cases q <;> rfl
    | setDir S d => rfl
    | wait => rfl
    | sample j => rfl
    | store k => rfl
  generalize hz : ({ u with dioPlan := u.sync.second :: u.dioPlan } : State) = z at hblk
  have hzb : z.busy = true := by rw [← hz]; exact f1.trans hb
  have hzm : z.currentMicro = some m := by rw [← hz]; exact f4.trans hm
  have hzr : z.rest = s.rest := by rw [← hz, ← f5]; rfl
  have hzp : z.rstPlan = [] := by rw [← hz]; exact f2.trans hq.1
  have hr := rest_advance hzb hzm
  have e1 := eq_withClock hblk
  have hyr : y.rest = (advance (perform m z)).rest := by
    have := congrArg State.rest e1
    exact this
  have hyb : y.busy = (advance (perform m z)).busy := by
    have := congrArg State.busy e1
    exact this
  have hyp : y.rstPlan = (advance (perform m z)).rstPlan := by
    have := congrArg State.rstPlan e1
    exact this
  have hpf := eq_withPeer_of_block (advance_perform m z)
  refine ⟨⟨?_, ?_⟩, ?_, ?_⟩
  · rw [g2, hyp, hpf]
    exact (performBlock_frame m z).2.2.2.2.2.2.2.2.2.2.2.trans hzp
  · rw [g3]; exact hp.noByte
  · rw [g5, hyr, ← hr, hzr]
  · rw [g1, g5, hyb, hyr]
    have hlen := congrArg List.length hr
    have hb2 : (advance (perform m z)).busy = (z.idx.toNat + 1 != z.trace.length) := by rw [hpf]; rfl
    rw [rest_of_micro hzb hzm] at hr
    have htl : (advance (perform m z)).rest = z.trace.drop (z.idx.toNat + 1) := (List.cons.inj hr).2.symm
    rw [hb2, htl]
    have hl := currentMicro_lt hzm
    by_cases h : z.idx.toNat + 1 = z.trace.length
    · rw [h, List.drop_length]; simp
    · have : z.trace.drop (z.idx.toNat + 1) ≠ [] := by
        intro h0
        have := congrArg List.length h0
        rw [List.length_drop, List.length_nil] at this
        omega
      have h2 : (z.trace.drop (z.idx.toNat + 1)).isEmpty = false := by
        cases hd : z.trace.drop (z.idx.toNat + 1) with
        | nil => exact absurd hd this
        | cons a l => rfl
      rw [h2]
      simpa using h

/-- The edges of what is left of a trace: `busy` stays 1 up to the last of them, and falls there (R50, R215). -/
theorem clockRun_rest (ms : List MicroOp) {s : State} (hb : s.busy = true) (hq : s.Quiet) (hr : s.rest = ms)
    (hne : ms ≠ []) (hd : s.currentMicro = some .wait → s.dly = delayCycles - 1) :
    (∀ n, n < (ms.map microCycles).sum → ∃ t, clockRun n s = .next t ∧ t.busy = true) ∧
      ∃ t, clockRun (ms.map microCycles).sum s = .next t ∧ t.busy = false := by
  induction ms generalizing s with
  | nil => exact absurd rfl hne
  | cons m ms ih =>
    have hm : s.currentMicro = some m := by
      simp only [State.rest, hb, if_true] at hr
      have h0 : (s.trace.drop s.idx.toNat)[0]? = some m := by rw [hr]; rfl
      rw [List.getElem?_drop, Nat.add_zero] at h0
      exact h0
    have hdm : m.isWait = true → s.dly = delayCycles - 1 := by
      intro h
      obtain rfl : m = .wait := by cases m <;> first | rfl | cases h
      exact hd hm
    obtain ⟨hin, t, u, ht, hu, -, htu, hld⟩ := clockRun_micro hb hq hm hdm
    obtain ⟨hqt, hrt, hbt⟩ := completed_fields hb hq hm hu htu
    rw [hr] at hrt
    obtain rfl : ms = t.rest := (List.cons.inj hrt).2
    rw [List.map_cons, List.sum_cons]
    generalize microCycles m = c at *
    have low : ∀ n, n < c → ∃ t, clockRun n s = .next t ∧ t.busy = true := by
      intro n hn
      obtain ⟨v, hv, hvw⟩ := hin n hn
      exact ⟨v, hv, (fields_of_withoutClock hvw).1.trans hb⟩
    by_cases hms : t.rest = []
    · rw [hms] at hbt ⊢
      rw [List.map_nil, List.sum_nil, Nat.add_zero]
      exact ⟨low, t, ht, hbt⟩
    · have hbt' : t.busy = true := by
        rw [hbt]
        cases h : t.rest with
        | nil => exact absurd h hms
        | cons a l => rfl
      obtain ⟨h1, v, hv, hvb⟩ := ih hbt' hqt rfl hms (hld hbt')
      generalize (t.rest.map microCycles).sum = d at *
      refine ⟨fun n hn => ?_, v, (clockRun_add c d ht).trans hv, hvb⟩
      by_cases hc : n < c
      · exact low n hc
      · obtain ⟨w, hw, hwb⟩ := h1 (n - c) (by omega)
        refine ⟨w, ?_, hwb⟩
        rw [show n = c + (n - c) by omega, clockRun_add c _ ht]
        exact hw

theorem busyCycles_eq (ms : List MicroOp) : (ms.map microCycles).sum = busyCycles ms := by
  induction ms with
  | nil => simp only [busyCycles, List.countP_nil, Nat.zero_mul, List.map_nil, List.sum_nil, Nat.add_zero]
  | cons m ms ih =>
    rw [List.map_cons, List.sum_cons, ih, busyCycles, busyCycles, List.countP_cons, List.countP_cons, microCycles]
    generalize delayCycles = D
    cases m.isWait <;> simp <;> ring

end Sys2Proof.Machine
end

