-- ==== Sys2Proof/Laws/PerInstr.lean ====
section
/-! SUPPORT. Per-instruction statements: family TableRow, the encoding of a well-formed instruction lies in its row of the opcode table (match and mask of 30_encoding.md R84, R87, R93). -/

namespace Sys2Proof.Laws.TableRow

/-- A host word in the row with this match and mask. -/
def HostRow (value mask : Word) (e : Encoding) : Prop :=
  match e with
  | .host16 w => w &&& mask = value
  | .serial8 _ => False

/-- A serial byte in the row with this match and mask. -/
def SerialRow (value mask : Byte) (e : Encoding) : Prop :=
  match e with
  | .host16 _ => False
  | .serial8 b => b &&& mask = value

/-- A host word of class (a) of R87: a bit of 15:11 is set. -/
def RsvRow (e : Encoding) : Prop :=
  match e with
  | .host16 w => w &&& 0xF800 ≠ 0
  | .serial8 _ => False

/-- The row an instruction's encoding has to lie in. -/
def Row (i : Instr) : Encoding → Prop :=
  match i with
  | .configure => HostRow 0x0000 0xFFFF
  | .openTxn => HostRow 0x0100 0xFFFF
  | .closeTxn => HostRow 0x0200 0xFFFF
  | .sendByte _ => HostRow 0x0300 0xFF00
  | .readKeyboard => HostRow 0x0400 0xFFFF
  | .setBrightness _ => HostRow 0x0500 0xFF00
  | .clearDisplay => HostRow 0x0600 0xFFFF
  | .reservedOp7 _ => HostRow 0x0700 0xFF00
  | .rsvNonZero _ _ _ => RsvRow
  | .serAddrAutoInc => SerialRow 0x40 0xFF
  | .serFixedAddr => SerialRow 0x44 0xFF
  | .serReadKeyScan => SerialRow 0x42 0xFF
  | .serDisplayOff => SerialRow 0x80 0xFF
  | .serSetBrightness _ => SerialRow 0x88 0xF8
  | .serSetAddress _ => SerialRow 0xC0 0xF0

/-- The statement of the family. -/
def Statement (i : Instr) : Prop := i.WellFormed → Row i (encode i)

theorem configure : Statement .configure := fun _ => rfl

theorem openTxn : Statement .openTxn := fun _ => rfl

theorem closeTxn : Statement .closeTxn := fun _ => rfl

theorem sendByte (v : Byte) : Statement (.sendByte v) := fun _ => by
  show hostWord 0 Op.sendByte.code v &&& 0xFF00 = 0x0300
  revert v
  decide

theorem readKeyboard : Statement .readKeyboard := fun _ => rfl

theorem setBrightness (v : Byte) : Statement (.setBrightness v) := fun _ => by
  show hostWord 0 Op.setBrightness.code v &&& 0xFF00 = 0x0500
  revert v
  decide

theorem clearDisplay : Statement .clearDisplay := fun _ => rfl

theorem reservedOp7 (v : Byte) : Statement (.reservedOp7 v) := fun _ => by
  show hostWord 0 0b111 v &&& 0xFF00 = 0x0700
  revert v
  decide

theorem rsvNonZero (r : BitVec 5) (o : BitVec 3) (a : Byte) : Statement (.rsvNonZero r o a) := fun h => by
  have hr : r ≠ 0 := by simpa [Instr.WellFormed, Instr.wellFormed] using h
  show hostWord r o a &&& 0xF800 ≠ 0
  intro h0
  apply hr
  have h1 : (hostWord r o a &&& 0xF800).rsv = (0 : Word).rsv := congrArg Word.rsv h0
  have h2 : (hostWord r o a &&& 0xF800).rsv = r := by
    have hx : (hostWord r o a &&& 0xF800).rsv = (hostWord r o a).rsv &&& (0xF800 : Word).rsv := by
      simp only [Word.rsv, BitVec.extractLsb'_and]
    have hall : ∀ q : BitVec 5, q &&& (0xF800 : Word).rsv = q := by decide
    rw [hx, Machine.rsv_hostWord, hall]
  rw [← h2, h1]
  decide

theorem serAddrAutoInc : Statement .serAddrAutoInc := fun _ => rfl

theorem serFixedAddr : Statement .serFixedAddr := fun _ => rfl

theorem serReadKeyScan : Statement .serReadKeyScan := fun _ => rfl

theorem serDisplayOff : Statement .serDisplayOff := fun _ => rfl

theorem serSetBrightness (b : BitVec 3) : Statement (.serSetBrightness b) := fun _ => by
  show Ser.setBrightness b &&& 0xF8 = 0x88
  revert b
  decide

theorem serSetAddress (a : BitVec 4) : Statement (.serSetAddress a) := fun _ => by
  show Ser.setAddress a &&& 0xF0 = 0xC0
  revert a
  decide

end Sys2Proof.Laws.TableRow
end

