-- ==== Sys2Proof/Tests/Slice0.lean ====
section
/-! SUPPORT. The model's own tests: well-formedness, decoding of words written out from the spec, single steps, and for every obligation with hypotheses states that meet them. Expected results are the tables of 30_encoding.md and the vectors of 95_test_vectors.md. -/

namespace Sys2Proof.Tests

open Sys2Proof.Machine

/-! ### Helpers -/

/-- The next state of an outcome. -/
def nextOf (o : Host.Outcome State Fault Refusal) : State :=
  match o with
  | .next t => t
  | .fault _ => State.reset
  | .refused _ => State.reset

/-- Whether an outcome is a next state. -/
def isNext (o : Host.Outcome State Fault Refusal) : Bool :=
  match o with
  | .next _ => true
  | .fault _ => false
  | .refused _ => false

/-- "Configured idle" of 95_test_vectors.md. -/
def configuredIdle : State := { State.reset with stbOe := true, clkOe := true, dioOe := true }

/-- Configured, with a transaction open. -/
def inTransaction : State := { configuredIdle with stbQ := false }

/-- A configured block that stands at micro-operation `n` of an operation. -/
def runningAt (op : Op) (arg : Byte) (n : BitVec 10) : State :=
  { configuredIdle with busy := true, curOp := op.code, argQ := arg, idx := n }

/-- A peer whose mode and pointer are known. -/
def knownPeer : PeerRegs := { PeerRegs.powerup with mode := .set .autoInc, ptr := .cell 3 }

/-! ### Well-formedness -/

theorem test_illformed_rsv_zero : ¬ (Instr.rsvNonZero 0 0b011 0x42).WellFormed := by decide

theorem test_wellformed_rsv : (Instr.rsvNonZero 0b00001 0 0x00).WellFormed := by decide

/-! ### Decoding: words written out bit by bit (30_encoding.md R84, R87, R93; 95_test_vectors.md 2.1) -/

theorem test_decode_configure : decodeWord 0b0000000000000000 = .ok .configure := by decide

theorem test_decode_open : decodeWord 0b0000000100000000 = .ok .openTxn := by decide

theorem test_decode_close : decodeWord 0b0000001000000000 = .ok .closeTxn := by decide

theorem test_decode_send_byte : decodeWord 0b0000001101000010 = .ok (.sendByte 0x42) := by decide

theorem test_decode_read_keyboard : decodeWord 0b0000010000000000 = .ok .readKeyboard := by decide

theorem test_decode_set_brightness : decodeWord 0b0000010111001000 = .ok (.setBrightness 200) := by decide

theorem test_decode_clear_display : decodeWord 0b0000011000000000 = .ok .clearDisplay := by decide

theorem test_decode_reserved_op : decodeWord 0b0000011111111111 = .ok (.reservedOp7 0xFF) := by decide

theorem test_decode_rsv : decodeWord 0b0000100000000000 = .ok (.rsvNonZero 0b00001 0b000 0x00) := by decide

theorem test_decode_ser_addr_auto_inc : decodeSerial 0b01000000 = .ok .serAddrAutoInc := by decide

theorem test_decode_ser_fixed_addr : decodeSerial 0b01000100 = .ok .serFixedAddr := by decide

theorem test_decode_ser_read_key_scan : decodeSerial 0b01000010 = .ok .serReadKeyScan := by decide

theorem test_decode_ser_display_off : decodeSerial 0b10000000 = .ok .serDisplayOff := by decide

theorem test_decode_ser_set_brightness : decodeSerial 0b10001101 = .ok (.serSetBrightness 5) := by decide

theorem test_decode_ser_set_address : decodeSerial 0b11001010 = .ok (.serSetAddress 10) := by decide

/-- Class (c) of R87 is refused by name. -/
theorem test_decode_arg_not_zero : decodeWord 0x0480 = .error (.argNotZero 0b100 0x80) := by decide

/-- 0x88 to 0x8F and 0xC0 to 0xCF are the whole of their rows: their neighbours are no commands. -/
theorem test_decode_serial_neighbours :
    [0x87, 0x90, 0xBF, 0xD0, 0x41, 0x81].all
      (fun b : Byte => decide (decodeSerial b = .error (.notACommandByte b))) = true := by decide

theorem test_decodeTableWord :
    decodeTableWord 16 0x0342 = some (.sendByte 0x42) ∧ decodeTableWord 8 0xC5 = some (.serSetAddress 5) ∧
      decodeTableWord 16 0x0101 = none := by decide

/-! ### The assembler (R90, R91) -/

theorem test_assemble_send_byte : assemble ["SEND_BYTE 0x42".toList] = .ok [0x0342] := by decide

theorem test_assemble_comment : assemble ["  set_brightness 0b11001000 ; dim".toList] = .ok [0x05C8] := by decide

theorem test_assemble_refused :
    assemble ["SEND_BYTE 256".toList] = .error .operandOutOfRange ∧ assemble ["SEND_BYTE".toList] = .error .missingOperand ∧
      assemble ["OPEN 1".toList] = .error .unexpectedOperand := by decide

/-! ### Single steps of the block -/

theorem test_brightness_table : encBright 0 = 0x80 ∧ encBright 1 = 0x89 ∧ encBright 7 = 0x8F ∧ encBright 200 = 0x8F := by
  decide

/-- V-RS-1. -/
theorem test_reset_outputs : State.reset.statusO = 0xE0 ∧ State.reset.keybufO = 0x00000000 := by decide

/-- Accepting CONFIGURE: BUSY set, no pin moved (10_state.md R48). -/
theorem test_step_configure : (nextOf (step { State.reset with port := [0x0000] })).statusO = 0xE1 := by decide

/-- Its micro-operation: V-PC-1. -/
theorem test_step_configure_dir : (nextOf (step { runningAt .configure 0 0 with stbOe := false })).statusO = 0xFC := by decide

/-- Accepting OPEN clears ILLEGAL (V-EX-2). -/
theorem test_step_open : (nextOf (step { configuredIdle with illegal := true, port := [0x0100] })).statusO = 0xFD := by decide

/-- V-PC-4: a nested OPEN is marked. -/
theorem test_step_open_nested :
    (nextOf (step { inTransaction with port := [0x0100] })).viol = ⟨false, true, false, false, false⟩ := by decide

/-- Strobe rises at the first micro-operation of CLOSE. -/
theorem test_step_close : (nextOf (step { runningAt .closeTxn 0 0 with stbQ := false })).stbQ = true := by decide

/-- V-PC-5. -/
theorem test_step_close_idle :
    (nextOf (step { configuredIdle with port := [0x0200] })).viol = ⟨false, false, true, false, false⟩ := by decide

/-- V-SB-7. -/
theorem test_step_send_byte_idle :
    (nextOf (step { configuredIdle with port := [0x0342] })).viol = ⟨false, false, false, true, false⟩ := by decide

/-- V-SB-1: at idx 26 of SEND_BYTE 0xA5 DIO takes bit 4, which is 0. -/
theorem test_step_send_byte_bit : (nextOf (step { runningAt .sendByte 0xA5 26 with stbQ := false })).dioQ = false := by decide

/-- V-RK-1: the store at idx 198 writes KEYBUF[2] and empties the accumulator. -/
theorem test_step_read_keyboard_store :
    (nextOf (step { runningAt .readKeyboard 0 198 with acc := 0xAA })).keybuf = #v[0x00, 0x00, 0xAA, 0x00] ∧
      (nextOf (step { runningAt .readKeyboard 0 198 with acc := 0xAA })).acc = 0x00 := by decide

/-- The sample of bit 1 of the first byte, at idx 60 (42_read_keyboard.md R140). -/
theorem test_step_read_keyboard_sample :
    (nextOf (step { runningAt .readKeyboard 0 60 with dioPlan := [true], acc := 0x01 })).acc = 0x03 := by decide

/-- V-EX-3: SET_BRIGHTNESS opens inside an open transaction. -/
theorem test_step_set_brightness_nested :
    (nextOf (step { inTransaction with port := [0x0500] })).viol = ⟨false, true, false, false, false⟩ := by decide

/-- The last micro-operation of SET_BRIGHTNESS clears BUSY (10_state.md R50). -/
theorem test_step_set_brightness_last : (nextOf (step (runningAt .setBrightness 7 51))).busy = false := by decide

/-- V-CD-1: strobe is high from idx 50. -/
theorem test_step_clear_display : (nextOf (step { runningAt .clearDisplay 0 50 with stbQ := false })).stbQ = true := by decide

/-- And low from idx 52. -/
theorem test_step_clear_display_open : (nextOf (step (runningAt .clearDisplay 0 52))).stbQ = false := by decide

/-- V-EX-1. -/
theorem test_step_reserved_op :
    (nextOf (step { configuredIdle with port := [0x0700] })).statusO = 0xFE ∧
      (nextOf (step { configuredIdle with port := [0x0700] })).ev = [.rejected 0x0700] := by decide

theorem test_step_rsv : (nextOf (step { configuredIdle with port := [0x0800] })).ev = [.rejected 0x0800] := by decide

/-- P5: class (c) is rejected as well. -/
theorem test_step_arg_not_zero : (nextOf (step { configuredIdle with port := [0x0101] })).statusO = 0xFE := by decide

/-- V-EX-4. -/
theorem test_step_reset :
    (nextOf (step { inTransaction with rstPlan := [true] })).statusO = 0xE0 ∧
      (nextOf (step { inTransaction with rstPlan := [true] })).viol = ⟨false, false, false, false, true⟩ := by decide

/-! ### Single steps of the peer (60_exceptions.md R187, 20_memory.md R69) -/

/-- The peer of a next state. -/
def peerAfter (b : Byte) : Peer := (nextOf (step { configuredIdle with serialIn := some b })).peer

theorem test_ser_addr_auto_inc :
    peerAfter 0x40 = .known { PeerRegs.powerup with mode := .set .autoInc, phase := .commanded } := by decide

theorem test_ser_fixed_addr :
    peerAfter 0x44 = .known { PeerRegs.powerup with mode := .set .fixed, phase := .commanded } := by decide

theorem test_ser_read_key_scan : peerAfter 0x42 = .known { PeerRegs.powerup with phase := .keyScan } := by decide

theorem test_ser_display_off :
    peerAfter 0x80 = .known { PeerRegs.powerup with power := .off, phase := .commanded } := by decide

theorem test_ser_set_brightness :
    peerAfter 0x8D =
      .known { PeerRegs.powerup with brightness := .level 5, power := .unstated 1, free := 2, phase := .commanded } := by
  decide

theorem test_ser_set_address :
    peerAfter 0xC5 = .known { PeerRegs.powerup with ptr := .cell 5, phase := .addressed 0 } := by decide

/-- A data byte in auto-increment mode fills cell 3 and moves the pointer on. -/
theorem test_data_byte :
    dataByte 0 0x06 knownPeer = { knownPeer with cells := [(3, 0x06)], ptr := .cell 4, phase := .addressed 1 } := by decide

/-- Falling strobe selects the peer. -/
theorem test_peer_selected :
    (nextOf (step (runningAt .openTxn 0 0))).peer = .known { PeerRegs.powerup with phase := .selected } := by decide

/-! ### The step runs what is placed for it -/

theorem test_withFetchWord_host :
    step (State.reset.withFetchWord 16 0x0342) = exec (.sendByte 0x42) { State.reset with rstPlan := [] } := rfl

theorem test_withFetchWord_serial :
    step (State.reset.withFetchWord 8 0x42) = exec .serReadKeyScan State.reset := rfl

/-! ### Hypotheses of the obligations are met -/

theorem test_hyp_DecodeOfEncodeIsIdentity :
    (Instr.rsvNonZero 0b10000 0b111 0xFF).WellFormed ∧ (Instr.serSetAddress 15).WellFormed ∧
      (Instr.setBrightness 0).WellFormed := by decide

theorem test_hyp_EncodeOfDecodeIsIdentity :
    decode (.host16 0x8300) = .ok (.rsvNonZero 0b10000 0b011 0x00) ∧ decode (.serial8 0x8F) = .ok (.serSetBrightness 7) := by
  decide

/-- One word for each clause. -/
theorem test_hyp_LegalWordsAreTheOperations :
    legal 0x05FF = true ∧ (legal 0x0800 = false ∧ Word.rsv 0x0800 ≠ 0) ∧
      (legal 0x0700 = false ∧ Word.rsv 0x0700 = 0 ∧ Word.op 0x0700 = 0b111) ∧
      (legal 0x0601 = false ∧ Word.rsv 0x0601 = 0 ∧ Word.op 0x0601 = 0b110 ∧ Word.arg 0x0601 ≠ 0x00) := by decide

theorem test_hyp_BrightnessEncoderTable :
    ((1 : Byte) ≤ 1 ∧ (1 : Byte) ≤ 7) ∧ ((1 : Byte) ≤ 7 ∧ (7 : Byte) ≤ 7) ∧ (8 : Byte) ≤ 8 ∧ (8 : Byte) ≤ 255 := by decide

theorem test_hyp_PseudoInstructionsExpandToLegalWords :
    expandPseudo (.sendCmd 0x42) = .ok [.openTxn, .sendByte 0x42, .closeTxn] ∧
      expandPseudo (.writeRun 14 1 [2]) =
        .ok [.openTxn, .sendByte 0x40, .closeTxn, .openTxn, .sendByte 0xCE, .sendByte 1, .sendByte 2, .closeTxn] ∧
      expandPseudo (.writeRun 15 1 [2]) = .error .runPastLastCell := by decide

/-- A configured idle block with one word waiting. -/
def waitingFor (w : Word) : State := { configuredIdle with port := [w] }

theorem test_hyp_StepRunsTheDecodedWord :
    (waitingFor 0x0100).rstLevel = false ∧ (waitingFor 0x0100).serialIn = none ∧ (waitingFor 0x0100).busy = false ∧
      (waitingFor 0x0100).port = 0x0100 :: [] ∧ decodeWord 0x0100 = .ok .openTxn := by decide

theorem test_hyp_StepRunsThePeersCommand :
    State.rstLevel { configuredIdle with serialIn := some 0xC5 } = false ∧
      ({ configuredIdle with serialIn := some 0xC5 } : State).serialIn = some 0xC5 ∧
      decodeSerial 0xC5 = .ok (.serSetAddress 5) := by decide

/-- The first and the last micro-operation of a trace. -/
theorem test_hyp_BusyStepPerformsOneMicroOperation :
    (∀ s ∈ [runningAt .openTxn 0 0, runningAt .openTxn 0 1],
      s.rstLevel = false ∧ s.serialIn = none ∧ s.busy = true) ∧
      (runningAt .openTxn 0 0).trace[(runningAt .openTxn 0 0).idx.toNat]? = some (.setPin .stb false) ∧
      (runningAt .openTxn 0 1).trace[(runningAt .openTxn 0 1).idx.toNat]? = some .wait := by decide

theorem test_hyp_IdleBlockWaits :
    configuredIdle.rstLevel = false ∧ configuredIdle.serialIn = none ∧ configuredIdle.busy = false ∧
      configuredIdle.port = [] := by decide

/-- One word for each illegal class. -/
theorem test_hyp_IllegalWordIsRejected :
    (waitingFor 0xF800).rstLevel = false ∧ (waitingFor 0xF800).serialIn = none ∧ (waitingFor 0xF800).busy = false ∧
      (waitingFor 0xF800).port = 0xF800 :: [] ∧ (waitingFor 0x0700).port = 0x0700 :: [] ∧
      (waitingFor 0x0001).port = 0x0001 :: [] ∧ legal 0xF800 = false ∧ legal 0x0700 = false ∧ legal 0x0001 = false := by
  decide

theorem test_hyp_IllegalInstructionsComplete : configuredIdle.busy = false ∧ (0b00001 : BitVec 5) ≠ 0 := by decide

theorem test_hyp_BusyBlockTakesNoWord :
    (runningAt .openTxn 0 0).busy = true ∧ decodeWord 0x0300 = .ok (.sendByte 0x00) ∧
      decodeWord 0x0800 = .ok (.rsvNonZero 1 0 0) := by decide

/-- A reset of an idle block, of a block with a transaction open, and of a busy one. -/
theorem test_hyp_ResetEdgeLeavesResetValues :
    ∀ s ∈ [configuredIdle, inTransaction, runningAt .sendByte 0x42 10],
      State.rstLevel { s with rstPlan := [true] } = true := by decide

/-- An operation with an argument at its largest value, and one without. -/
theorem test_hyp_LegalWordIsAccepted :
    configuredIdle.busy = false ∧ (Op.sendByte.takesArg = true ∨ (0xFF : Byte) = 0x00) ∧
      (Op.closeTxn.takesArg = true ∨ (0x00 : Byte) = 0x00) := by decide

/-- States and operations in which each mark is added, and one in which none is. -/
theorem test_hyp_AcceptanceMarksViolations :
    State.reset.busy = false ∧ State.reset.stbOe = false ∧ inTransaction.busy = false ∧ inTransaction.stbQ = false ∧
      configuredIdle.busy = false ∧ configuredIdle.stbOe = true ∧ configuredIdle.stbQ = true := by decide

/-- No mark: the peer stays; a new mark: it is undefined; an old mark again: it was undefined already. -/
theorem test_hyp_AcceptanceLeavesThePeerOrTheMarkUndefinesIt :
    let marked := { configuredIdle with viol := ⟨false, false, true, false, false⟩, peer := .undefined }
    (configuredIdle.busy = false ∧ PeerInv configuredIdle ∧
        (checkViolations .openTxn configuredIdle).viol = configuredIdle.viol ∧
        (checkViolations .closeTxn configuredIdle).viol ≠ configuredIdle.viol) ∧
      marked.busy = false ∧ PeerInv marked ∧ (checkViolations .closeTxn marked).viol = marked.viol := by decide

/-- The states in which a command is taken: before CONFIGURE, configured, and inside a transaction. -/
theorem test_hyp_IdleQuiet : State.reset.IdleQuiet ∧ configuredIdle.IdleQuiet ∧ inTransaction.IdleQuiet := by decide

theorem test_hyp_ConfigureIsIdempotent : configuredIdle.IdleQuiet ∧ configuredIdle.Configured := by decide

theorem test_hyp_ReadKeyboardCompletes : configuredIdle.IdleQuiet ∧ configuredIdle.acc = 0x00 := by decide

/-- V-RK-1's peer. -/
def scanPeer : State :=
  { configuredIdle with
    dioPlan := bitsOfByte 0xFF ++ bitsOfByte 0x00 ++ bitsOfByte 0xAA ++ bitsOfByte 0x55 ++ [true] }

theorem test_hyp_ReadKeyboardReturnsThePeersBytes :
    scanPeer.IdleQuiet ∧ scanPeer.acc = 0x00 ∧
      scanPeer.dioPlan = bitsOfByte 0xFF ++ bitsOfByte 0x00 ++ bitsOfByte 0xAA ++ bitsOfByte 0x55 ++ [true] := by decide

theorem test_hyp_ConfiguredIdle : configuredIdle.ConfiguredIdle ∧ configuredIdle.acc = 0x00 := by decide

theorem test_hyp_ClearDisplayBlanksEveryCell :
    State.ConfiguredIdle { configuredIdle with peer := .known knownPeer } ∧
      ({ configuredIdle with peer := .known knownPeer } : State).peer = .known knownPeer := by decide

/-- An empty transaction and one of two bytes. -/
theorem test_hyp_FramedTransactionIsReceivedWhole :
    ∀ vs ∈ [([] : List Byte), [0xC5, 0x06]],
      State.ConfiguredIdle { configuredIdle with port := 0x0100 :: vs.map (fun v => 0x0300 ||| v.setWidth 16) ++ [0x0200] } := by
  decide

theorem test_hyp_ModeCommandsComplete : configuredIdle.peer = .known PeerRegs.powerup := by decide

/-- A peer that is known and one that is not. -/
theorem test_hyp_SerialCommandsLeaveTheBlockAlone :
    decodeSerial 0x88 = .ok (.serSetBrightness 0) ∧ ({ configuredIdle with peer := .undefined } : State).peer = .undefined := by
  decide

/-- The clock low and a command byte half taken: strobe low and DIO driven, strobe high, and DIO not driven; then the
eighth bit of a first byte, of a data byte, and of a byte without a meaning. -/
theorem test_hyp_PeerTakesABitAtTheRisingEdge :
    let r := { PeerRegs.powerup with phase := .selected, bits := [true, false, true, false, true, false] }
    let s := { inTransaction with clkQ := false, peer := .known r }
    (s.peer = .known r ∧ s.wire .clk = .low ∧ s.wire .stb = .low ∧ s.dioOe = true ∧ r.bits.length ≠ 7) ∧
      State.wire { s with stbQ := true } .stb ≠ .low ∧ ({ s with dioOe := false } : State).dioOe = false ∧
      (∀ q ∈ [{ r with bits := r.bits ++ [true] }, { r with bits := r.bits ++ [true], phase := .addressed 15 },
          { r with bits := r.bits ++ [true], phase := .keyScan }], q.bits.length = 7) := by decide

/-- Strobe high, strobe low, and an open transaction whose next byte is the first one, a data byte, or without a meaning;
a byte that is a command and one that is none. -/
theorem test_hyp_PeerFollowsATransaction :
    let r := { PeerRegs.powerup with phase := .selected }
    let s := { inTransaction with peer := .known r }
    (configuredIdle.peer = .known PeerRegs.powerup ∧ configuredIdle.wire .stb = .high) ∧
      (s.peer = .known r ∧ s.wire .stb = .low ∧ s.InTransaction ∧ r.bits = [] ∧ r.phase = .selected) ∧
      decodeSerial 0x44 = .ok .serFixedAddr ∧ decodeSerial 0x41 = .error (.notACommandByte 0x41) ∧
      ({ r with phase := .addressed 0 } : PeerRegs).phase = .addressed 0 ∧
      ({ r with phase := .commanded } : PeerRegs).phase = .commanded := by decide

/-- A run that fills all cells, and one at the last cell; a cell inside and a cell outside the run. -/
theorem test_hyp_AutoIncrementRunFillsConsecutiveCells :
    (knownPeer.mode = .set .autoInc ∧ knownPeer.ptr = .cell 3 ∧ (3 : BitVec 4).toNat + (List.replicate 13 (0 : Byte)).length ≤ 16) ∧
      (15 : BitVec 4).toNat + [(0xFF : Byte)].length ≤ 16 ∧ (0 : BitVec 4).toNat + (List.replicate 16 (0 : Byte)).length ≤ 16 ∧
      ((3 : BitVec 4).toNat ≤ 15 ∧ 15 < (3 : BitVec 4).toNat + 13) ∧ ¬ ((3 : BitVec 4).toNat ≤ 2) := by decide

theorem test_hyp_FixedModeDataByteWritesOneCell :
    ({ knownPeer with mode := .set .fixed, ptr := .cell 15 } : PeerRegs).mode = .set .fixed ∧
      ({ knownPeer with mode := .set .fixed, ptr := .cell 15 } : PeerRegs).ptr = .cell 15 := by decide

/-! #### Invariants: a busy and an idle state that meet them and step -/

theorem test_hyp_StepKeepsTheSequencerInsideItsTrace :
    ∀ s ∈ [runningAt .sendByte 0x42 47, waitingFor 0x0600], SequencerInv s ∧ isNext (step s) = true := by decide

theorem test_hyp_StepKeepsThePinsComingToRest :
    ∀ s ∈ [{ runningAt .sendByte 0x42 1 with clkQ := false, stbQ := false }, { State.reset with port := [0x0100] }],
      AtRestInv s ∧ isNext (step s) = true := by decide

theorem test_hyp_IdlePinsAreAtRest :
    AtRestInv configuredIdle ∧ configuredIdle.busy = false ∧ configuredIdle.stbOe = true := by decide

theorem test_hyp_StepKeepsTheAccumulatorEmptyAtRest :
    ∀ s ∈ [{ runningAt .readKeyboard 0 247 with acc := 0x55 }, waitingFor 0x0400],
      AccInv s ∧ isNext (step s) = true := by decide

/-- A marked state with its peer undefined, and an unmarked one whose next word is a violation. -/
theorem test_hyp_StepKeepsTheMarkedPeerUndefined :
    ∀ s ∈ [{ inTransaction with viol := ⟨false, true, false, false, false⟩, peer := .undefined }, waitingFor 0x0200],
      PeerInv s ∧ isNext (step s) = true := by decide

theorem test_hyp_StepKeepsTheDisplayMemoryCanonical :
    State.memoryWf { configuredIdle with peer := .known { knownPeer with cells := [(0, 1), (15, 2)] } } = true ∧
      isNext (step { configuredIdle with peer := .known { knownPeer with cells := [(0, 1), (15, 2)] } }) = true := by decide

theorem test_hyp_FramedHostNeverViolates :
    FramedInv { State.reset with port := [0x0000, 0x0100, 0x0342, 0x0200, 0x0600] } ∧
      isNext (step { State.reset with port := [0x0000, 0x0100, 0x0342, 0x0200, 0x0600] }) = true := by decide

theorem test_hyp_GhostsOnlyGrow :
    isNext (step { inTransaction with viol := ⟨true, false, false, false, false⟩, rstPlan := [true] }) = true ∧
      ViolSet.has ⟨true, false, false, false, false⟩ .unconfigured = true := by decide

/-- Each of the four writers. -/
theorem test_hyp_DirectionLatchWriters :
    ∀ s ∈ [{ configuredIdle with rstPlan := [true] }, { runningAt .configure 0 0 with dioOe := false },
        runningAt .readKeyboard 0 50, { runningAt .readKeyboard 0 248 with dioOe := false }],
      isNext (step s) = true ∧ (nextOf (step s)).oes ≠ s.oes := by decide

/-- Reset, and the first and the last store. -/
theorem test_hyp_KeybufWriters :
    ∀ s ∈ [{ configuredIdle with rstPlan := [true], keybuf := #v[1, 2, 3, 4] }, { runningAt .readKeyboard 0 100 with acc := 0xFF },
        { runningAt .readKeyboard 0 247 with acc := 0x55 }],
      isNext (step s) = true ∧ (nextOf (step s)).keybuf ≠ s.keybuf := by decide

theorem test_hyp_BlockNeverReadsThePeer :
    (runningAt .openTxn 0 0).withoutPeer = ({ runningAt .openTxn 0 0 with peer := .undefined } : State).withoutPeer ∧
      (runningAt .openTxn 0 0).serialIn = none ∧ isNext (step (runningAt .openTxn 0 0)) = true := by decide

theorem test_hyp_EveryCommandTerminates :
    (runningAt .sendByte 0x42 0).busy = true ∧ (runningAt .sendByte 0x42 0).Quiet ∧
      SequencerInv (runningAt .sendByte 0x42 0) := by decide

/-! #### Clock edges -/

/-- The second micro-operation of OPEN, its delay loaded. -/
def waiting : State := { runningAt .openTxn 0 1 with dly := delayCycles - 1 }

theorem test_hyp_WaitLastsDelayCyclesEdges :
    waiting.busy = true ∧ waiting.Quiet ∧ waiting.currentMicro = some .wait ∧ waiting.dly = delayCycles - 1 :=
  ⟨by decide, by decide, by decide, rfl⟩

theorem delayCycles_small (n : Nat) (h : n ≤ delayCycles) : n < 2 ^ dlyWidth := by
  have := Nat.le_pow_clog (b := 2) (by decide) (delayCycles + 1)
  unfold dlyWidth
  omega

/-- A loaded counter and one that has run down, in states that step. -/
theorem test_hyp_DelayCounterStaysInItsWidth :
    DlyInv waiting ∧ DlyInv configuredIdle ∧ isNext (clockEdge configuredIdle) = true ∧
      isNext (step waiting) = true :=
  ⟨delayCycles_small _ (Nat.sub_le _ _), delayCycles_small _ (Nat.zero_le _), by decide, by decide⟩

theorem test_hyp_OtherMicroOperationsLastOneEdge :
    (runningAt .readKeyboard 0 54).busy = true ∧ (runningAt .readKeyboard 0 54).Quiet ∧
      (runningAt .readKeyboard 0 54).currentMicro = some (.sample 0) ∧ (MicroOp.sample 0).isWait = false := by decide

theorem test_hyp_BusyLastsAsTheTimingTableSays :
    configuredIdle.IdleQuiet ∧ (Op.setBrightness.takesArg = true ∨ (7 : Byte) = 0x00) := by decide

end Sys2Proof.Tests
end

section

namespace Sys2Proof.Machine

theorem coversDelay_iff (n : Nat) :
    coversDelay n = true ↔ Config.tDMinMicroseconds * fClk ≤ n * 1000000 :=
  decide_eq_true_iff

/-- "Round up but never down" (R9): cycles added to a count that lasts `T_D_MIN` do no harm. -/
theorem coversDelay_mono {m n : Nat} (hmn : m ≤ n) (hm : coversDelay m = true) : coversDelay n = true :=
  (coversDelay_iff n).mpr (((coversDelay_iff m).mp hm).trans (Nat.mul_le_mul_right _ hmn))

theorem coversDelay_leastDelayCycles : coversDelay leastDelayCycles = true :=
  Nat.find_spec coversDelay_some

theorem leastDelayCycles_le_delayCycles : leastDelayCycles ≤ delayCycles :=
  Nat.le_add_right _ _

theorem coversDelay_delayCycles : coversDelay delayCycles = true :=
  coversDelay_mono leastDelayCycles_le_delayCycles coversDelay_leastDelayCycles

/-- Settles O57: the least count lasts `T_D_MIN` by its choice, `DELAY_CYCLES` is no smaller, and it is positive since
`F_CLK` is (`delayCycles_pos`). -/
theorem delayMeetsTheLowerBound : Obligations.DelayMeetsTheLowerBound :=
  ⟨(coversDelay_iff delayCycles).mp coversDelay_delayCycles, delayCycles_pos⟩

end Sys2Proof.Machine
end

section

namespace Sys2Proof.Machine

/-! ### What a reset, an acceptance and a peer's turn leave for the invariants -/

@[simp] theorem resetEdge_busy (s : State) : (resetEdge s).busy = false := rfl
@[simp] theorem resetEdge_clkQ (s : State) : (resetEdge s).clkQ = true := rfl
@[simp] theorem resetEdge_stbOe (s : State) : (resetEdge s).stbOe = false := rfl
@[simp] theorem resetEdge_clkOe (s : State) : (resetEdge s).clkOe = false := rfl
@[simp] theorem resetEdge_acc (s : State) : (resetEdge s).acc = 0x00 := rfl

theorem resetEdge_viol (s : State) :
    (resetEdge s).viol = (s.markIf (s.busy || !s.stbQ) .resetAbort).viol := rfl

@[simp] theorem resetEdge_ev (s : State) : (resetEdge s).ev = s.ev :=
  markIf_ev s (s.busy || !s.stbQ) .resetAbort

theorem accept_idx (op : Op) (arg : Byte) (s : State) : (accept op arg s).idx = 0 := rfl

/-- The fields the invariants speak of do not depend on the peer. -/
theorem fields_of_block {s t : State} (h : t.withoutPeer = s.withoutPeer) :
    t.busy = s.busy ∧ t.idx = s.idx ∧ t.trace = s.trace ∧ t.rest = s.rest ∧ t.clkQ = s.clkQ ∧ t.oes = s.oes ∧
      t.acc = s.acc ∧ t.keybuf = s.keybuf ∧ t.viol = s.viol ∧ t.ev = s.ev := by
  rw [eq_withPeer_of_block h]
  exact ⟨rfl, rfl, rfl, rfl, rfl, rfl, rfl, rfl, rfl, rfl⟩

/-! ### The pins come to rest (10_state.md R53, R54) -/

/-- With no command running, the invariant speaks of the pins as they are. -/
theorem atRestInv_idle {s : State} (h : s.busy = false) :
    AtRestInv s ↔ s.clkQ = true ∧ s.stbOe = s.clkOe ∧ (s.stbOe = true → s.dioOe = true) := by
  simp only [AtRestInv, State.finalClk, State.finalOes, rest_idle h, List.foldl_nil, State.oes]

theorem atRestInv_of_finals {s t : State} (hc : t.finalClk = s.finalClk) (ho : t.finalOes = s.finalOes)
    (h : AtRestInv s) : AtRestInv t := by
  unfold AtRestInv
  rw [hc, ho]
  exact h

theorem atRestInv_of_block {s t : State} (ht : t.withoutPeer = s.withoutPeer) (h : AtRestInv s) : AtRestInv t := by
  obtain ⟨-, -, -, hr, hc, ho, -⟩ := fields_of_block ht
  refine atRestInv_of_finals ?_ ?_ h
  · rw [State.finalClk, State.finalClk, hr, hc]
  · rw [State.finalOes, State.finalOes, hr, ho]

/-- An accepted command starts from pins at rest, and each trace brings them back to rest (40_pin_control.md R113). -/
theorem atRestInv_accept {s : State} (op : Op) (arg : Byte) (hb : s.busy = false) (h : AtRestInv s) :
    AtRestInv (accept op arg s) := by
  obtain ⟨hclk, hdir, hdio⟩ := (atRestInv_idle hb).mp h
  have hc : (accept op arg s).finalClk = true := by
    rw [State.finalClk, rest_accept, accept_clkQ, hclk, clk_traceOf]
  refine ⟨hc, ?_⟩
  rw [State.finalOes, rest_accept, accept_oes, oes_traceOf]
  cases op with
  | configure => exact ⟨rfl, fun _ => rfl⟩
  | readKeyboard => exact ⟨hdir, fun _ => rfl⟩
  | openTxn => exact ⟨hdir, hdio⟩
  | closeTxn => exact ⟨hdir, hdio⟩
  | sendByte => exact ⟨hdir, hdio⟩
  | setBrightness => exact ⟨hdir, hdio⟩
  | clearDisplay => exact ⟨hdir, hdio⟩

/-- Settles O46: a micro-operation leaves what the running command ends with as it was (`micro_finals`), and a command
is accepted by an idle block, from pins at rest. -/
theorem stepKeepsThePinsComingToRest : Obligations.StepKeepsThePinsComingToRest := by
  intro s t h hst
  rcases step_cases hst with ⟨-, rfl⟩ | ⟨-, -, hp⟩ | ⟨-, -, hb, m, hm, hp⟩ | ⟨-, -, -, -, rfl⟩ |
    ⟨-, -, hb, w, ws, -, -, op, -, rfl⟩ | ⟨-, -, hb, w, ws, -, -, rfl⟩
  case reset => exact (atRestInv_idle (resetEdge_busy _)).mpr (by simp)
  case peer => exact atRestInv_of_block hp.block h
  case micro =>
    obtain ⟨hc, ho, -⟩ := micro_finals hb hm hp
    exact atRestInv_of_finals hc ho h
  case idle => exact h
  case accepted => exact atRestInv_accept op w.arg (s := { s.afterRstLevel with port := ws }) hb h
  case rejected => exact h

/-- Settles O47: an idle block has nothing left to perform, so its pins are where the invariant says they come to. -/
theorem idlePinsAreAtRest : Obligations.IdlePinsAreAtRest := by
  intro s h hb
  obtain ⟨hclk, hdir, hdio⟩ := (atRestInv_idle hb).mp h
  exact ⟨hclk, fun hs => ⟨hdir ▸ hs, hdio hs⟩⟩

/-! ### The accumulator (10_state.md R40) -/

theorem accInv_idle {s : State} (h : s.busy = false) : AccInv s ↔ s.acc = 0x00 := by
  simp only [AccInv, rest_idle h, List.foldl_nil, beq_iff_eq]

theorem accInv_of_block {s t : State} (ht : t.withoutPeer = s.withoutPeer) (h : AccInv s) : AccInv t := by
  obtain ⟨-, -, -, hr, -, -, ha, -⟩ := fields_of_block ht
  unfold AccInv
  rw [hr, ha]
  exact h

theorem accInv_accept {s : State} (op : Op) (arg : Byte) (hb : s.busy = false) (h : AccInv s) :
    AccInv (accept op arg s) := by
  unfold AccInv
  rw [rest_accept, accept_acc, (accInv_idle hb).mp h]
  exact acc_traceOf op arg

theorem accClearAfterMicro_mono {c d : Bool} (h : c = true → d = true) (m : MicroOp) :
    accClearAfterMicro c m = true → accClearAfterMicro d m = true := by
  cases m with
  | setPin p v => exact h
  | setDir S e => exact h
  | wait => exact h
  | sample j => exact id
  | store k => exact id

/-- Knowing more of the accumulator at first leaves no less known in the end. -/
theorem accClear_foldl_mono (ms : List MicroOp) {c d : Bool} (h : c = true → d = true) :
    ms.foldl accClearAfterMicro c = true → ms.foldl accClearAfterMicro d = true := by
  induction ms generalizing c d with
  | nil => exact h
  | cons m ms ih => exact ih (accClearAfterMicro_mono h m)

theorem accInv_micro {s t : State} {m : MicroOp} (hb : s.busy = true) (hm : s.currentMicro = some m)
    (hp : PeerOnly (advance (perform m s.afterRstLevel)) t) (h : AccInv s) : AccInv t := by
  obtain ⟨-, -, -, -, -, -, hacc, -⟩ := micro_fields hp
  unfold AccInv at h
  rw [micro_rest hb hm hp, List.foldl_cons] at h
  refine accClear_foldl_mono t.rest (fun hc => ?_) h
  have hempty : (performBlock m s.afterRstLevel).acc = 0x00 :=
    performBlock_acc m s.afterRstLevel (s.acc == 0) (fun hz => eq_of_beq hz) hc
  rw [hacc, hempty]
  rfl

theorem step_accInv {s t : State} (h : AccInv s) (hst : step s = .next t) : AccInv t := by
  rcases step_cases hst with ⟨-, rfl⟩ | ⟨-, -, hp⟩ | ⟨-, -, hb, m, hm, hp⟩ | ⟨-, -, -, -, rfl⟩ |
    ⟨-, -, hb, w, ws, -, -, op, -, rfl⟩ | ⟨-, -, hb, w, ws, -, -, rfl⟩
  case reset => exact (accInv_idle (resetEdge_busy _)).mpr (resetEdge_acc _)
  case peer => exact accInv_of_block hp.block h
  case micro => exact accInv_micro hb hm hp h
  case idle => exact h
  case accepted => exact accInv_accept op w.arg (s := { s.afterRstLevel with port := ws }) hb h
  case rejected => exact h

/-- Settles O48: each step keeps the invariant, which for an idle block says that the accumulator is 0x00. -/
theorem stepKeepsTheAccumulatorEmptyAtRest : Obligations.StepKeepsTheAccumulatorEmptyAtRest := by
  intro s t h hst
  have ht := step_accInv h hst
  exact ⟨ht, fun hb => (accInv_idle hb).mp ht⟩

/-! ### A busy block's step (10_state.md R44, R49, R50) -/

/-- A micro-operation does not look at the reset plan. -/
theorem performBlock_afterRstLevel (m : MicroOp) (s : State) :
    performBlock m s.afterRstLevel = (performBlock m s).afterRstLevel := by
  cases m with
  | setPin q v => cases q <;> rfl
  | setDir S d => rfl
  | wait => rfl
  | sample j => rfl
  | store k => rfl

/-- Settles O9: the sequencer performs the micro-operation and moves on (`advance_perform`), and the peer's turn after
it leaves the block alone. -/
theorem busyStepPerformsOneMicroOperation : Obligations.BusyStepPerformsOneMicroOperation := by
  intro s m hr hs hb hm
  obtain ⟨t, ht, hp⟩ := busyTurn_some (s := s.afterRstLevel) (m := m) hm
  obtain ⟨hil, -, hco, haq, -, -, -, hvi, -, -, -, hrp⟩ := performBlock_frame m s
  refine ⟨t, (step_busy hr hs hb).trans ht, ?_⟩
  rw [hp.block, advance_perform, performBlock_afterRstLevel]
  simp only [State.withControl, State.withoutPeer, State.afterRstLevel, hil, hco, haq, hvi, hrp]
  rfl

/-- Where the sequencer stands after a micro-operation's step. -/
theorem micro_control {s t : State} {m : MicroOp} (hp : PeerOnly (advance (perform m s.afterRstLevel)) t) :
    t.busy = (s.idx.toNat + 1 != s.trace.length) ∧ t.idx = s.idx + 1 ∧ t.trace = s.trace := by
  rw [eq_withPeer_of_block (hp.block.trans (advance_perform m s.afterRstLevel))]
  exact ⟨rfl, rfl, rfl⟩

theorem sequencerInv_of_block {s t : State} (ht : t.withoutPeer = s.withoutPeer) (h : SequencerInv s) :
    SequencerInv t := by
  obtain ⟨hb, hi, htr, -⟩ := fields_of_block ht
  unfold SequencerInv
  rw [hb, hi, htr]
  exact h

theorem sequencerInv_micro {s t : State} {m : MicroOp} (hm : s.currentMicro = some m)
    (hp : PeerOnly (advance (perform m s.afterRstLevel)) t) : SequencerInv t := by
  intro hbt
  obtain ⟨hb, hi, htr⟩ := micro_control hp
  have hlt : s.idx.toNat < s.trace.length := currentMicro_lt hm
  have hne : s.idx.toNat + 1 ≠ s.trace.length := bne_iff_ne.mp (hb ▸ hbt)
  rw [hi, htr, idx_succ hlt]
  omega

theorem sequencerInv_accept (op : Op) (arg : Byte) (s : State) : SequencerInv (accept op arg s) := by
  intro _
  rw [accept_trace, accept_idx]
  exact List.length_pos_iff.mpr (traceOf_ne_nil op arg)

theorem step_sequencerInv {s t : State} (h : SequencerInv s) (hst : step s = .next t) : SequencerInv t := by
  rcases step_cases hst with ⟨-, rfl⟩ | ⟨-, -, hp⟩ | ⟨-, -, -, m, hm, hp⟩ | ⟨-, -, -, -, rfl⟩ |
    ⟨-, -, -, w, ws, -, -, op, -, rfl⟩ | ⟨-, -, hb, w, ws, -, -, rfl⟩
  case reset => exact fun hb => nomatch hb
  case peer => exact sequencerInv_of_block hp.block h
  case micro => exact sequencerInv_micro hm hp
  case idle => exact h
  case accepted => exact sequencerInv_accept op w.arg _
  case rejected => exact h

/-- Settles O44: the index moves on inside the trace or the block becomes idle (`idx_succ`), an acceptance starts a
trace that is not empty, and no trace is longer than CLEAR_DISPLAY's (`trace_length_le`). -/
theorem stepKeepsTheSequencerInsideItsTrace : Obligations.StepKeepsTheSequencerInsideItsTrace := by
  intro s t h hst
  exact ⟨step_sequencerInv h hst, trace_length_le t⟩

/-! ### Words and an idle or a busy block (10_state.md R47, R48) -/

theorem takeCommand_busy (op : Op) (arg : Byte) {s : State} (h : s.busy = true) : takeCommand op arg s = .next s := by
  simp only [takeCommand, h, if_true]

theorem takeIllegal_busy (w : Word) {s : State} (h : s.busy = true) : takeIllegal w s = .next s := by
  simp only [takeIllegal, h, if_true]

/-- Settles O13: a host word decodes to an operation or to an illegal class, and a busy block takes neither. -/
theorem busyBlockTakesNoWord : Obligations.BusyBlockTakesNoWord := by
  intro s w i hb hd
  cases hl : legal w with
  | true =>
    obtain ⟨op, -, -, -, hi⟩ := decodeWord_legal hl
    obtain rfl : op.instr w.arg = i := Except.ok.inj (hi.symm.trans hd)
    rw [exec_instr]
    exact takeCommand_busy _ _ hb
  | false =>
    rcases decodeWord_illegal hl with ⟨-, hi⟩ | ⟨-, -, hi⟩ | ⟨-, -, -, hi⟩
    · obtain rfl : Instr.rsvNonZero w.rsv w.op w.arg = i := Except.ok.inj (hi.symm.trans hd)
      exact takeIllegal_busy _ hb
    · obtain rfl : Instr.reservedOp7 w.arg = i := Except.ok.inj (hi.symm.trans hd)
      exact takeIllegal_busy _ hb
    · cases hi.symm.trans hd

/-- An acceptance writes the command record, the marks and the peer, nothing else. -/
theorem accept_frame (op : Op) (arg : Byte) (s : State) :
    accept op arg s =
      { s with
        illegal := false, curOp := op.code, argQ := arg, idx := 0, busy := true
        viol := (accept op arg s).viol, peer := (accept op arg s).peer } := by
  rw [accept_viol, accept_peer, accept, checkViolations_frame]

/-- Settles O18: the meaning of a legal word is its acceptance (`exec_instr`), whose frame is `accept_frame`. -/
theorem legalWordIsAccepted : Obligations.LegalWordIsAccepted := by
  intro s op arg hb ha
  have harg : (if op.takesArg then arg else 0x00) = arg := by rcases ha with h | h <;> simp [h]
  refine ⟨accept op arg s, ?_, accept_frame op arg s⟩
  rw [exec_instr, harg]
  exact takeCommand_idle op arg hb

theorem hostTurn_decoded {s : State} {w : Word} {ws : List Word} {i : Instr} (hp : s.port = w :: ws)
    (hd : decodeWord w = .ok i) : hostTurn s = exec i { s with port := ws } := by
  simp only [hostTurn, hp, hd]

/-- Settles O7: the step of an idle block is the host's turn, which performs the decoded word. -/
theorem stepRunsTheDecodedWord : Obligations.StepRunsTheDecodedWord := by
  intro s w ws i hr hs hb hp hd
  rw [step_host hr hs hb]
  exact hostTurn_decoded (s := s.afterRstLevel) hp hd

/-! ### The ghosts (10_state.md R55) -/

theorem has_add (v : ViolSet) (j k : Violation) : (v.add j).has k = (v.has k || decide (j = k)) := by
  cases j <;> cases k <;> simp [ViolSet.add, ViolSet.has]

theorem markIf_has {s : State} {k : Violation} (c : Bool) (j : Violation) (h : s.viol.has k = true) :
    (s.markIf c j).viol.has k = true := by
  cases c with
  | false => exact h
  | true =>
    show (s.viol.add j).has k = true
    rw [has_add, h, Bool.true_or]

theorem checkViolations_has {s : State} {k : Violation} (op : Op) (h : s.viol.has k = true) :
    (checkViolations op s).viol.has k = true :=
  markIf_has _ _ (markIf_has _ _ (markIf_has _ _ (markIf_has _ _ h)))

/-- Every mark of `s` is in `t`, and the events of `t` are those of `s` with events appended (R55). -/
def GhostsGrow (s t : State) : Prop :=
  (∀ k : Violation, s.viol.has k = true → t.viol.has k = true) ∧ ∃ new, t.ev = s.ev ++ new

theorem ghostsGrow_of_eq {s t : State} (hv : t.viol = s.viol) (he : t.ev = s.ev) : GhostsGrow s t :=
  ⟨fun k h => hv ▸ h, [], by rw [he, List.append_nil]⟩

theorem ghostsGrow_reset (s : State) : GhostsGrow s (resetEdge s) :=
  ⟨fun _ h => resetEdge_viol s ▸ markIf_has _ _ h, [], by rw [resetEdge_ev, List.append_nil]⟩

theorem ghostsGrow_micro {s t : State} {m : MicroOp} (hp : PeerOnly (advance (perform m s.afterRstLevel)) t) :
    GhostsGrow s t := by
  obtain ⟨-, -, -, hv, -, -, -, -, he⟩ := micro_fields hp
  obtain ⟨e, hnew⟩ := performBlock_ev m s.afterRstLevel
  exact ⟨fun k h => hv ▸ h, [e], he.trans hnew⟩

theorem ghostsGrow_accept (op : Op) (arg : Byte) (s : State) : GhostsGrow s (accept op arg s) :=
  ⟨fun _ h => checkViolations_has op h, [], by rw [accept_ev, List.append_nil]⟩

/-- Settles O52: each case of a step leaves the ghosts or adds to them, a reset included (R203). -/
theorem ghostsOnlyGrow : Obligations.GhostsOnlyGrow := by
  intro s t hst
  show GhostsGrow s t
  rcases step_cases hst with ⟨-, rfl⟩ | ⟨-, -, hp⟩ | ⟨-, -, -, m, -, hp⟩ | ⟨-, -, -, -, rfl⟩ |
    ⟨-, -, -, w, ws, -, -, op, -, rfl⟩ | ⟨-, -, -, w, ws, -, -, rfl⟩
  case reset => exact ghostsGrow_reset s.afterRstLevel
  case peer =>
    obtain ⟨-, -, -, -, -, -, -, -, hv, he⟩ := fields_of_block hp.block
    exact ghostsGrow_of_eq hv he
  case micro => exact ghostsGrow_micro hp
  case idle => exact ghostsGrow_of_eq rfl rfl
  case accepted => exact ghostsGrow_accept op w.arg { s.afterRstLevel with port := ws }
  case rejected => exact ⟨fun _ h => h, [.rejected w], rfl⟩

/-! ### The key buffer (10_state.md R39, 42_read_keyboard.md R140) -/

/-- A micro-operation that changes the key buffer is one of READ_KEYBOARD's four stores. -/
theorem micro_keybuf {s t : State} {m : MicroOp} (hm : s.currentMicro = some m)
    (hp : PeerOnly (advance (perform m s.afterRstLevel)) t) (hne : t.keybuf ≠ s.keybuf) :
    s.curOp = Op.readKeyboard.code ∧
      ∃ k : Fin 4, s.idx.toNat = 100 + 49 * k.val ∧ t.keybuf = s.keybuf.set k.val s.acc := by
  obtain ⟨-, -, -, -, -, -, -, hk, -⟩ := micro_fields hp
  rw [performBlock_keybuf] at hk
  cases m with
  | store k =>
    rcases currentMicro_special hm rfl with ⟨-, h⟩ | ⟨hop, ⟨-, h⟩ | ⟨-, h⟩ | ⟨k', hidx, h⟩⟩
    · cases h
    · cases h
    · cases h
    · cases h
      exact ⟨hop, k, hidx, hk⟩
  | setPin p v => exact absurd hk hne
  | setDir S d => exact absurd hk hne
  | wait => exact absurd hk hne
  | sample j => exact absurd hk hne

/-- Settles O54: of the cases of a step only a reset and a store change the key buffer. -/
theorem keybufWriters : Obligations.KeybufWriters := by
  intro s t hst hne
  rcases step_cases hst with ⟨hr, -⟩ | ⟨-, -, hp⟩ | ⟨-, -, hb, m, hm, hp⟩ | ⟨-, -, -, -, rfl⟩ |
    ⟨-, -, -, w, ws, -, -, op, -, rfl⟩ | ⟨-, -, -, w, ws, -, -, rfl⟩
  case reset => exact .inl hr
  case peer =>
    obtain ⟨-, -, -, -, -, -, -, hk, -⟩ := fields_of_block hp.block
    exact absurd hk hne
  case micro => exact .inr ⟨hb, micro_keybuf hm hp hne⟩
  case idle => exact absurd rfl hne
  case accepted => exact absurd (accept_keybuf op w.arg _) hne
  case rejected => exact absurd rfl hne

/-! ### The delay counter's width (10_state.md R45) -/

theorem delayCycles_lt_pow_dlyWidth : delayCycles < 2 ^ dlyWidth :=
  Nat.le_pow_clog Nat.one_lt_two (delayCycles + 1)

theorem pow_dlyWidth_pred_le_delayCycles : 2 ^ (dlyWidth - 1) ≤ delayCycles :=
  Nat.le_of_lt_succ (Nat.pow_pred_clog_lt_self Nat.one_lt_two (Nat.succ_lt_succ delayCycles_pos))

/-- Settles O17: an edge leaves the counter, counts it down, loads `DELAY_CYCLES - 1` or clears it (`clockEdge_dly`),
and a step leaves or clears it (`step_dly`). -/
theorem delayCounterStaysInItsWidth : Obligations.DelayCounterStaysInItsWidth := by
  refine ⟨⟨delayCycles_lt_pow_dlyWidth, pow_dlyWidth_pred_le_delayCycles⟩, fun s t h hst => ?_⟩
  have hw := delayCycles_lt_pow_dlyWidth
  unfold DlyInv at h ⊢
  generalize 2 ^ dlyWidth = bound at *
  rcases hst with he | hs
  · rcases clockEdge_dly he with hd | hd | hd | hd <;> omega
  · rcases step_dly hs with hd | hd <;> omega

/-! ### An edge that completes a micro-operation (10_state.md R45, R49) -/

/-- A micro-operation's effect is the same with the level given as with that level drawn, the draw apart. -/
theorem performBlock_of_level {m : MicroOp} {b : Bool} {s : State} (hl : m.isSample = true → s.drawLevel = b) :
    ∃ dp dr, performBlock m s = (applyMicro b m s).withClock s.dly s.sync dp dr := by
  cases m with
  | setPin p v => exact ⟨s.dioPlan, s.draws, by cases p <;> rfl⟩
  | setDir S d => exact ⟨s.dioPlan, s.draws, rfl⟩
  | wait => exact ⟨s.dioPlan, s.draws, rfl⟩
  | sample j => exact ⟨s.dioPlan.tail, s.draws + 1, by rw [← hl rfl]; rfl⟩
  | store k => exact ⟨s.dioPlan, s.draws, rfl⟩

/-- What an edge completes with the level `b` shown by the synchroniser is what a step performs with `b` drawn, the
fields of the clock-edge layer apart. -/
theorem completed_eq_performed {s u : State} {m : MicroOp} {b : Bool} (hu : u.withoutClock = s.withoutClock)
    (hl : m.isSample = true → s.drawLevel = b) :
    (advance (watch u (applyMicro b m u))).settled.withoutClock = (advance (perform m s)).settled.withoutClock := by
  obtain ⟨dp, dr, hperf⟩ := performBlock_of_level hl
  have hs : s = s.withClock s.dly s.sync s.dioPlan s.draws := rfl
  have hwatch : perform m s = (watch s (applyMicro b m s)).withClock s.dly s.sync dp dr := by
    rw [perform, hperf]
    exact watch_withClock s.dly s.dly s.sync s.sync s.dioPlan dp s.draws dr s _
  rw [hwatch, eq_withClock hu, applyMicro_withClock, watch_withClock, advance_withClock, advance_withClock,
    settled_withClock, settled_withClock, withClock_withoutClock, withClock_withoutClock]

/-- A quiet busy block's step: the micro-operation performed, the index moved on, and the peer's turn taken. -/
theorem step_settled {s : State} {m : MicroOp} (hb : s.busy = true) (hq : s.Quiet) (hm : s.currentMicro = some m) :
    step s = .next (advance (perform m s)).settled := by
  rw [step_busy (rstLevel_quiet hq.1) hq.2 hb, afterRstLevel_quiet hq.1]
  simp only [busyTurn, sequencerStep, hm]
  exact peerTurn_settled _

/-- Settles O58: the edges before the last only count down (`clockRun_micro`), and the last completes the `Wait`, which
reads no level. -/
theorem waitLastsDelayCyclesEdges : Obligations.WaitLastsDelayCyclesEdges := by
  intro s hb hq hm hd
  obtain ⟨hbefore, t, u, ht, hu, -, htu, -⟩ := clockRun_micro hb hq hm (fun _ => hd)
  have hc : microCycles .wait = delayCycles := if_pos rfl
  rw [hc] at hbefore ht
  exact ⟨hbefore, t, _, ht, step_settled hb hq hm, htu.trans (completed_eq_performed hu (fun h => nomatch h))⟩

/-- Settles O59: the edge completes the micro-operation at once (`clockEdge_completing`), with the level the
synchroniser shows where the step has that level drawn. -/
theorem otherMicroOperationsLastOneEdge : Obligations.OtherMicroOperationsLastOneEdge := by
  intro s m hb hq hm hw
  obtain ⟨dl, sy, dp, dr, he, -⟩ := clockEdge_completing hb hq hm (fun h => nomatch hw.symm.trans h)
  have hstep := step_settled (s := { s with dioPlan := s.sync.second :: s.dioPlan }) hb hq hm
  refine ⟨_, _, he, hstep, ?_⟩
  rw [withClock_withoutClock]
  exact completed_eq_performed rfl (fun _ => rfl)

/-! ### The outputs (10_state.md R46, R47, 20_memory.md R62) -/

/-- `status_o` with its width as the sum of its fields' widths, the form the library's lemmas on `++` speak of. -/
theorem statusO_getLsbD (s : State) (i : Nat) :
    s.statusO.getLsbD i =
      (BitVec.ofBool s.dioQ ++ BitVec.ofBool s.clkQ ++ BitVec.ofBool s.stbQ ++ BitVec.ofBool s.dioOe
        ++ BitVec.ofBool s.clkOe ++ BitVec.ofBool s.stbOe ++ BitVec.ofBool s.illegal
        ++ BitVec.ofBool s.busy).getLsbD i := rfl

/-- Each bit of `status_o` (R46). -/
theorem statusO_bits (s : State) :
    s.statusO.getLsbD 0 = s.busy ∧ s.statusO.getLsbD 1 = s.illegal ∧ s.statusO.getLsbD 2 = s.stbOe ∧
      s.statusO.getLsbD 3 = s.clkOe ∧ s.statusO.getLsbD 4 = s.dioOe ∧ s.statusO.getLsbD 5 = s.stbQ ∧
      s.statusO.getLsbD 6 = s.clkQ ∧ s.statusO.getLsbD 7 = s.dioQ := by
  simp only [statusO_getLsbD, BitVec.getLsbD_append]
  simp

theorem cmdReadyO_iff (s : State) : s.cmdReadyO = true ↔ s.busy = false ∧ s.rstLevel = false := by
  simp only [State.cmdReadyO, Bool.and_eq_true, Bool.not_eq_true']

/-- `keybuf_o` with its width as the sum of its bytes' widths. -/
theorem keybufO_getLsbD (s : State) (i : Nat) :
    s.keybufO.getLsbD i = (s.keybuf[3] ++ s.keybuf[2] ++ s.keybuf[1] ++ s.keybuf[0]).getLsbD i := rfl

/-- Byte `k` of `keybuf_o` (R62). -/
theorem keybufO_byte (s : State) (k : Fin 4) : s.keybufO.extractLsb' (8 * k.val) 8 = s.keybuf[k] := by
  ext i hi
  rw [BitVec.getElem_extractLsb', keybufO_getLsbD]
  simp only [BitVec.getLsbD_append]
  match k with
  | 0 => simp [hi]
  | 1 => simp [hi]
  | 2 => simp [show 16 + i - 8 = 8 + i by omega, show ¬ 16 + i < 8 by omega, hi]
  | 3 => simp [show 24 + i - 8 = 16 + i by omega, show 16 + i - 8 = 8 + i by omega, show ¬ 24 + i < 8 by omega,
      show ¬ 16 + i < 8 by omega, hi]

/-- Settles O16: the bits, the bytes and the ready line as their definitions place them, after the two vectors of a
reset and of a configured block. -/
theorem hostOutputs : Obligations.HostOutputs :=
  ⟨by decide, by decide, fun s => ⟨statusO_bits s, cmdReadyO_iff s, keybufO_byte s⟩⟩

end Sys2Proof.Machine
end

section

namespace Sys2Proof.Machine

/-! ### Data bytes in the display memory (20_memory.md R69) -/

/-- A data byte whose place the spec states is written at the pointer, and the mode moves the pointer. -/
theorem dataByte_stated {n : Nat} {r : PeerRegs} {a : BitVec 4} (v : Byte)
    (hs : dataByteStated r.addrMode n = true) (hp : r.pointer = some a) :
    dataByte n v r =
      { r with
        cells := r.cells.write a.toNat v
        ptr := nextPointer r.addrMode a r.ptr
        phase := .addressed (n + 1) } := by
  simp only [dataByte, hs, hp, if_true]

theorem addrMode_set {r : PeerRegs} {m : AddrMode} (h : r.mode = .set m) : r.addrMode = m := by
  simp only [PeerRegs.addrMode, h]

theorem pointer_cell {r : PeerRegs} {a : BitVec 4} (h : r.ptr = .cell a) : r.pointer = some a := by
  simp only [PeerRegs.pointer, h]

/-- Settles O42: the byte is written at the pointer (`dataByte_stated`, `read_write`), which fixed mode keeps. -/
theorem fixedModeDataByteWritesOneCell : Obligations.FixedModeDataByteWritesOneCell := by
  intro r a v hm hp
  have hmode : r.addrMode = .fixed := addrMode_set hm
  have hs : dataByteStated r.addrMode 0 = true := by rw [hmode]; rfl
  rw [dataByte_stated v hs (pointer_cell hp), hmode]
  exact ⟨hp, fun c => read_write r.cells a.toNat v c⟩

theorem dataByte_autoInc_cells {r : PeerRegs} {a : BitVec 4} (n : Nat) (v : Byte) (hm : r.mode = .set .autoInc)
    (hp : r.ptr = .cell a) : (dataByte n v r).cells = r.cells.write a.toNat v := by
  have hs : dataByteStated r.addrMode n = true := by rw [addrMode_set hm]; rfl
  rw [dataByte_stated v hs (pointer_cell hp)]

theorem dataByte_autoInc_ptr {r : PeerRegs} {a : BitVec 4} (n : Nat) (v : Byte) (hm : r.mode = .set .autoInc)
    (hp : r.ptr = .cell a) (ha : a.toNat ≠ Config.maxAddr) : (dataByte n v r).ptr = .cell (a + 1) := by
  have hs : dataByteStated r.addrMode n = true := by rw [addrMode_set hm]; rfl
  rw [dataByte_stated v hs (pointer_cell hp), addrMode_set hm]
  exact if_neg ha

/-- The peer's registers after the data bytes `vs`, `n` others having come before them in the transaction. -/
def dataRun (vs : List Byte) (n : Nat) (r : PeerRegs) : PeerRegs :=
  (vs.foldl (fun (p : Nat × PeerRegs) v => (p.1 + 1, dataByte p.1 v p.2)) (n, r)).2

theorem dataRun_cons (v : Byte) (vs : List Byte) (n : Nat) (r : PeerRegs) :
    dataRun (v :: vs) n r = dataRun vs (n + 1) (dataByte n v r) := rfl

/-- A run of data bytes read back. Where the pointer stands matters only while a byte is still to come: behind the last
cell it is no longer at a cell. -/
theorem dataRun_read (vs : List Byte) (n : Nat) {r : PeerRegs} {a : Nat} (hm : r.mode = .set .autoInc)
    (hp : vs ≠ [] → r.ptr = .cell (BitVec.ofNat 4 a)) (ha : a + vs.length ≤ 16) (c : Nat) :
    (dataRun vs n r).cells.read c = if a ≤ c ∧ c < a + vs.length then vs[c - a]? else r.cells.read c := by
  induction vs generalizing n r a with
  | nil => exact (if_neg (fun h : a ≤ c ∧ c < a => by omega)).symm
  | cons v vs ih =>
    have hptr := hp (List.cons_ne_nil v vs)
    rw [List.length_cons] at ha ⊢
    have hnat : (BitVec.ofNat 4 a).toNat = a := Nat.mod_eq_of_lt (by omega)
    have hnext : vs ≠ [] → (dataByte n v r).ptr = .cell (BitVec.ofNat 4 (a + 1)) := by
      intro hne
      have hlen := List.length_pos_iff.mpr hne
      rw [BitVec.ofNat_add]
      exact dataByte_autoInc_ptr n v hm hptr (by rw [hnat, Config.maxAddr]; omega)
    rw [dataRun_cons, ih (n + 1) ((dataByte_mode n v r).trans hm) hnext (by omega),
      dataByte_autoInc_cells n v hm hptr, read_write, hnat]
    rcases Nat.lt_trichotomy c a with hlt | rfl | hgt
    · rw [if_neg (by omega), if_neg (by omega), if_neg (by omega)]
    · rw [if_neg (by omega), if_pos rfl, if_pos (by omega), Nat.sub_self, List.getElem?_cons_zero]
    · have hidx : (v :: vs)[c - a]? = vs[c - (a + 1)]? := by
        rw [show c - a = c - (a + 1) + 1 by omega, List.getElem?_cons_succ]
      rw [if_neg (show c ≠ a by omega), hidx]
      exact if_congr (by omega) rfl rfl

/-- Settles O41: induction on the bytes (`dataRun_read`), each written at the pointer, which moves on by one cell. -/
theorem autoIncrementRunFillsConsecutiveCells : Obligations.AutoIncrementRunFillsConsecutiveCells := by
  intro vs r a n hm hp ha
  exact dataRun_read vs n hm (fun _ => by rw [hp, BitVec.ofNat_toNat, BitVec.setWidth_eq]) ha

/-! ### The display memory's canonical form (20_memory.md R68) -/

/-- What leaves the peer alone or makes it undefined keeps the canonical form. -/
theorem memoryWf_of_peer {s t : State} (hp : t.peer = s.peer ∨ t.peer = .undefined) (h : s.memoryWf = true) :
    t.memoryWf = true := by
  unfold State.memoryWf at h ⊢
  rcases hp with hp | hp
  · rw [hp]
    exact h
  · rw [hp]

theorem perform_memoryWf (m : MicroOp) {s : State} (h : s.memoryWf = true) : (perform m s).memoryWf = true := by
  obtain ⟨-, -, -, -, -, -, -, -, hpeer, -⟩ := performBlock_frame m s
  exact watch_memoryWf _ _ (memoryWf_of_peer (.inl hpeer) h)

theorem resetEdge_peer (s : State) :
    (resetEdge s).peer = if s.busy || !s.stbQ then .undefined else s.peer :=
  markIf_peer s (s.busy || !s.stbQ) .resetAbort

theorem resetEdge_peer_cases (s : State) : (resetEdge s).peer = s.peer ∨ (resetEdge s).peer = .undefined := by
  rw [resetEdge_peer]
  split
  · exact .inr rfl
  · exact .inl rfl

theorem accept_peer_cases (op : Op) (arg : Byte) (s : State) :
    (accept op arg s).peer = s.peer ∨ (accept op arg s).peer = .undefined :=
  (checkViolations_peer op s).imp And.left And.left

/-- Settles O50: what the peer takes from the wires and the commands it executes keep the form (`watch_memoryWf`,
`PeerOnly.memory`); everything else leaves the peer alone or makes it undefined. -/
theorem stepKeepsTheDisplayMemoryCanonical : Obligations.StepKeepsTheDisplayMemoryCanonical := by
  intro s t h hst
  have hu : s.afterRstLevel.memoryWf = true := h
  rcases step_cases hst with ⟨-, rfl⟩ | ⟨-, -, hp⟩ | ⟨-, -, -, m, -, hp⟩ | ⟨-, -, -, -, rfl⟩ |
    ⟨-, -, -, w, ws, -, -, op, -, rfl⟩ | ⟨-, -, -, w, ws, -, -, rfl⟩
  case reset => exact memoryWf_of_peer (resetEdge_peer_cases s.afterRstLevel) hu
  case peer => exact hp.memory hu
  case micro => exact hp.memory (perform_memoryWf m hu)
  case idle => exact hu
  case accepted => exact memoryWf_of_peer (accept_peer_cases op w.arg { s.afterRstLevel with port := ws }) hu
  case rejected => exact hu

end Sys2Proof.Machine
end

section

namespace Sys2Proof.Machine

/-! ### Encoded instructions decode (30_encoding.md R84, R87, R93) -/

/-- The bits of a host operation: its code, and its argument where it takes one (R84). -/
theorem encode_instr {op : Op} {arg : Byte} (ha : op.takesArg = true ∨ arg = 0x00) :
    encode (op.instr arg) = .host16 (hostWord 0 op.code arg) := by
  cases op with
  | sendByte => rfl
  | setBrightness => rfl
  | configure => rw [ha.resolve_left nofun]; rfl
  | openTxn => rw [ha.resolve_left nofun]; rfl
  | closeTxn => rw [ha.resolve_left nofun]; rfl
  | readKeyboard => rw [ha.resolve_left nofun]; rfl
  | clearDisplay => rw [ha.resolve_left nofun]; rfl

theorem ofCode_code (op : Op) : Op.ofCode op.code = some op := by cases op <;> rfl

theorem instr_wellFormed (op : Op) (arg : Byte) : (op.instr arg).WellFormed := by cases op <;> rfl

theorem decodeWord_operation {op : Op} {arg : Byte} (ha : op.takesArg = true ∨ arg = 0x00) :
    decodeWord (hostWord 0 op.code arg) = .ok (op.instr arg) := by
  rcases ha with h | h <;> simp [decodeWord, ofCode_code, h]

theorem decodeWord_reservedOp (arg : Byte) : decodeWord (hostWord 0 0b111 arg) = .ok (.reservedOp7 arg) := by
  simp [decodeWord, Op.ofCode]

theorem decodeWord_rsvNonZero {rsv : BitVec 5} (op : BitVec 3) (arg : Byte) (h : rsv ≠ 0) :
    decodeWord (hostWord rsv op arg) = .ok (.rsvNonZero rsv op arg) := by
  rw [decodeWord, rsv_hostWord, if_pos h, op_hostWord, arg_hostWord]

theorem decodeSerial_setBrightness : ∀ b : BitVec 3, decodeSerial (Ser.setBrightness b) = .ok (.serSetBrightness b) := by
  decide

theorem decodeSerial_setAddress : ∀ a : BitVec 4, decodeSerial (Ser.setAddress a) = .ok (.serSetAddress a) := by
  decide

theorem wellFormed_rsvNonZero {rsv : BitVec 5} {op : BitVec 3} {arg : Byte} :
    (Instr.rsvNonZero rsv op arg).WellFormed ↔ rsv ≠ 0 :=
  bne_iff_ne

/-- Settles O2: one case for each row of the table, the seven host operations by `decodeWord_operation`. -/
theorem decodeOfEncodeIsIdentity : Obligations.DecodeOfEncodeIsIdentity := by
  intro i hwf
  cases i with
  | configure => exact decodeWord_operation (op := .configure) (.inr rfl)
  | openTxn => exact decodeWord_operation (op := .openTxn) (.inr rfl)
  | closeTxn => exact decodeWord_operation (op := .closeTxn) (.inr rfl)
  | sendByte v => exact decodeWord_operation (op := .sendByte) (.inl rfl)
  | readKeyboard => exact decodeWord_operation (op := .readKeyboard) (.inr rfl)
  | setBrightness v => exact decodeWord_operation (op := .setBrightness) (.inl rfl)
  | clearDisplay => exact decodeWord_operation (op := .clearDisplay) (.inr rfl)
  | reservedOp7 arg => exact decodeWord_reservedOp arg
  | rsvNonZero rsv op arg => exact decodeWord_rsvNonZero op arg (wellFormed_rsvNonZero.mp hwf)
  | serAddrAutoInc => rfl
  | serFixedAddr => rfl
  | serReadKeyScan => rfl
  | serDisplayOff => rfl
  | serSetBrightness b => exact decodeSerial_setBrightness b
  | serSetAddress a => exact decodeSerial_setAddress a

/-! ### What decodes is an encoding (30_encoding.md R80, R88, R94) -/

theorem rsv_of_legal {w : Word} (h : legal w = true) : w.rsv = 0 := by
  simp only [legal, Bool.and_eq_true, beq_iff_eq] at h
  exact h.1.1

/-- A word that decodes is the encoding of what it decodes to. -/
theorem encode_of_decodeWord {w : Word} {i : Instr} (h : decodeWord w = .ok i) :
    i.WellFormed ∧ encode i = .host16 w := by
  cases hl : legal w with
  | true =>
    obtain ⟨op, -, hcode, harg, hd⟩ := decodeWord_legal hl
    obtain rfl : op.instr w.arg = i := Except.ok.inj (hd.symm.trans h)
    refine ⟨instr_wellFormed op w.arg, ?_⟩
    rw [encode_instr harg, hcode, ← rsv_of_legal hl, hostWord_fields]
  | false =>
    rcases decodeWord_illegal hl with ⟨hr, hd⟩ | ⟨hr, hop, hd⟩ | ⟨-, -, -, hd⟩
    · obtain rfl : Instr.rsvNonZero w.rsv w.op w.arg = i := Except.ok.inj (hd.symm.trans h)
      exact ⟨wellFormed_rsvNonZero.mpr hr, congrArg Encoding.host16 (hostWord_fields w)⟩
    · obtain rfl : Instr.reservedOp7 w.arg = i := Except.ok.inj (hd.symm.trans h)
      refine ⟨rfl, ?_⟩
      rw [encode, ← hr, ← hop, hostWord_fields]
    · cases hd.symm.trans h

/-- A byte under the mask of set-brightness is the base with its own low bits (R94). -/
theorem setBrightness_lowBits :
    ∀ b : Byte, b &&& 0xF8 = Ser.brightnessBase → Ser.setBrightness (b.extractLsb' 0 3) = b := by decide

theorem setAddress_lowBits :
    ∀ b : Byte, b &&& 0xF0 = Ser.addressBase → Ser.setAddress (b.extractLsb' 0 4) = b := by decide

/-- A byte that decodes is the encoding of what it decodes to. -/
theorem encode_of_decodeSerial {b : Byte} {i : Instr} (h : decodeSerial b = .ok i) :
    i.WellFormed ∧ encode i = .serial8 b := by
  unfold decodeSerial at h
  split_ifs at h with h40 h44 h42 h80 h88 hC0 <;> cases h
  · exact ⟨rfl, congrArg Encoding.serial8 h40.symm⟩
  · exact ⟨rfl, congrArg Encoding.serial8 h44.symm⟩
  · exact ⟨rfl, congrArg Encoding.serial8 h42.symm⟩
  · exact ⟨rfl, congrArg Encoding.serial8 h80.symm⟩
  · exact ⟨rfl, congrArg Encoding.serial8 (setBrightness_lowBits b h88)⟩
  · exact ⟨rfl, congrArg Encoding.serial8 (setAddress_lowBits b hC0)⟩

/-- Settles O3: a word is its three fields (`hostWord_fields`), a byte its row's base and low bits. -/
theorem encodeOfDecodeIsIdentity : Obligations.EncodeOfDecodeIsIdentity := by
  intro e i h
  cases e with
  | host16 w => exact encode_of_decodeWord h
  | serial8 b => exact encode_of_decodeSerial h

/-- Settles O4: the decoder's two laws, for a legal word and for the three classes of illegal ones. -/
theorem legalWordsAreTheOperations : Obligations.LegalWordsAreTheOperations := by
  intro w
  refine ⟨fun hl => ?_, decodeWord_illegal⟩
  obtain ⟨op, -, hcode, -, hd⟩ := decodeWord_legal hl
  exact ⟨op, hcode, hd⟩

/-- Settles O1: the decoder evaluated on each of the fourteen words. -/
theorem writtenOutWordsDecode : Obligations.WrittenOutWordsDecode := by
  unfold Obligations.WrittenOutWordsDecode
  decide

/-! ### The illegal classes (30_encoding.md R87, 60_exceptions.md R170) -/

theorem exec_reservedOp7 (arg : Byte) (s : State) :
    exec (.reservedOp7 arg) s = takeIllegal (hostWord 0 0b111 arg) s := rfl

theorem exec_rsvNonZero (rsv : BitVec 5) (op : BitVec 3) (arg : Byte) (s : State) :
    exec (.rsvNonZero rsv op arg) s = takeIllegal (hostWord rsv op arg) s := rfl

theorem hostWord_reservedOp : ∀ arg : Byte, hostWord 0 0b111 arg = 0x0700 ||| arg.setWidth 16 := by decide

/-- Settles O12: an idle block rejects the word (`takeIllegal_idle`), which the event carries whole. -/
theorem illegalInstructionsComplete : Obligations.IllegalInstructionsComplete := by
  intro s rsv op arg hb
  constructor
  · rw [exec_reservedOp7, takeIllegal_idle _ hb, hostWord_reservedOp]
    rfl
  · intro _
    rw [exec_rsvNonZero, takeIllegal_idle _ hb]
    rfl

/-! ### The assembler's expansions (30_encoding.md R91) -/

theorem legal_operation {op : Op} {arg : Byte} (ha : op.takesArg = true ∨ arg = 0x00) :
    legal (hostWord 0 op.code arg) = true := by
  simp only [legal, rsv_hostWord, op_hostWord, arg_hostWord]
  rcases ha with h | rfl
  · cases op with
    | sendByte => rfl
    | setBrightness => rfl
    | configure => cases h
    | openTxn => cases h
    | closeTxn => cases h
    | readKeyboard => cases h
    | clearDisplay => cases h
  · cases op <;> rfl

/-- A host operation with an argument only where it takes one: what is encoded as a legal word. -/
def IsOperation (i : Instr) : Prop := ∃ (op : Op) (arg : Byte), (op.takesArg = true ∨ arg = 0x00) ∧ op.instr arg = i

theorem isOperation_legalWord {i : Instr} (h : IsOperation i) : ∃ w : Word, encode i = .host16 w ∧ legal w = true := by
  obtain ⟨op, arg, ha, rfl⟩ := h
  exact ⟨_, encode_instr ha, legal_operation ha⟩

theorem asmTransaction_ne_nil (vs : List Byte) : asmTransaction vs ≠ [] := List.cons_ne_nil _ _

theorem asmTransaction_operations (vs : List Byte) : ∀ i ∈ asmTransaction vs, IsOperation i := by
  intro i hi
  simp only [asmTransaction, List.cons_append, List.mem_cons, List.mem_append, List.mem_map, List.not_mem_nil,
    or_false] at hi
  rcases hi with rfl | ⟨v, -, rfl⟩ | rfl
  · exact ⟨.openTxn, 0x00, .inr rfl, rfl⟩
  · exact ⟨.sendByte, v, .inl rfl, rfl⟩
  · exact ⟨.closeTxn, 0x00, .inr rfl, rfl⟩

theorem asmTransactions_operations (us vs : List Byte) :
    ∀ i ∈ asmTransaction us ++ asmTransaction vs, IsOperation i := by
  intro i hi
  exact (List.mem_append.mp hi).elim (asmTransaction_operations us i) (asmTransaction_operations vs i)

/-- A run stands for two transactions where it ends at or before cell 0x0F (R91). -/
theorem expandPseudo_writeRun (a : BitVec 4) (v0 : Byte) (vs : List Byte) :
    expandPseudo (.writeRun a v0 vs) =
      if a.toNat + vs.length ≤ 15 then
        .ok (asmTransaction [Ser.addrAutoInc] ++ asmTransaction (Ser.setAddress a :: v0 :: vs))
      else .error .runPastLastCell := rfl

/-- Each pseudo-instruction stands for one or more host operations. -/
theorem expandPseudo_operations {p : Pseudo} {is : List Instr} (h : expandPseudo p = .ok is) :
    is ≠ [] ∧ ∀ i ∈ is, IsOperation i := by
  cases p with
  | displayOff =>
    cases h
    refine ⟨List.cons_ne_nil _ _, fun i hi => ?_⟩
    rw [List.mem_singleton.mp hi]
    exact ⟨.setBrightness, 0, .inl rfl, rfl⟩
  | sendCmd c => cases h; exact ⟨asmTransaction_ne_nil _, asmTransaction_operations _⟩
  | setModeAuto => cases h; exact ⟨asmTransaction_ne_nil _, asmTransaction_operations _⟩
  | setModeFixed => cases h; exact ⟨asmTransaction_ne_nil _, asmTransaction_operations _⟩
  | writeCell a v => cases h; exact ⟨List.cons_ne_nil _ _, asmTransactions_operations _ _⟩
  | writeRun a v0 vs =>
    rw [expandPseudo_writeRun] at h
    split at h <;> cases h
    exact ⟨List.cons_ne_nil _ _, asmTransactions_operations _ _⟩

/-- The words of two transactions in a row. -/
theorem hostWords_asmTransactions (us vs : List Byte) :
    hostWords (asmTransaction us ++ asmTransaction vs) =
      (0x0100 :: us.map (fun b => 0x0300 ||| b.setWidth 16) ++ [0x0200])
        ++ (0x0100 :: vs.map (fun b => 0x0300 ||| b.setWidth 16) ++ [0x0200]) := by
  rw [hostWords_append, hostWords_asmTransaction, hostWords_asmTransaction]

theorem writeCell_words (a : BitVec 4) (v : Byte) :
    (expandPseudo (.writeCell a v)).map hostWords =
      .ok [0x0100, 0x0344, 0x0200, 0x0100, 0x03C0 ||| a.setWidth 16, 0x0300 ||| v.setWidth 16, 0x0200] := by
  rw [← sendSetAddress_word a]
  exact congrArg Except.ok (hostWords_asmTransactions [Ser.fixedAddr] [Ser.setAddress a, v])

theorem writeRun_words (a : BitVec 4) (v0 : Byte) (vs : List Byte) :
    (expandPseudo (.writeRun a v0 vs)).map hostWords =
      if a.toNat + vs.length ≤ 15 then
        .ok ([0x0100, 0x0340, 0x0200, 0x0100, 0x03C0 ||| a.setWidth 16]
          ++ (v0 :: vs).map (fun b => 0x0300 ||| b.setWidth 16) ++ [0x0200])
      else .error .runPastLastCell := by
  rw [← sendSetAddress_word a, expandPseudo_writeRun]
  split
  · exact congrArg Except.ok (hostWords_asmTransactions [Ser.addrAutoInc] (Ser.setAddress a :: v0 :: vs))
  · rfl

/-- Settles O6: an expansion is one or two transactions (`hostWords_asmTransaction`), each of host operations; the text
of R90 is evaluated. -/
theorem pseudoInstructionsExpandToLegalWords : Obligations.PseudoInstructionsExpandToLegalWords := by
  refine ⟨fun c v v0 a vs => ⟨rfl, ?_, ?_, ?_, writeCell_words a v, writeRun_words a v0 vs⟩, fun p is h => ?_,
    by decide, by decide, by decide, by decide⟩
  · exact congrArg Except.ok (hostWords_asmTransaction [c])
  · exact congrArg Except.ok (hostWords_asmTransaction [Ser.addrAutoInc])
  · exact congrArg Except.ok (hostWords_asmTransaction [Ser.fixedAddr])
  · obtain ⟨hne, hops⟩ := expandPseudo_operations h
    exact ⟨hne, fun i hi => isOperation_legalWord (hops i hi)⟩

/-! ### A byte received in each phase (41_send_byte.md R129, 30_encoding.md R92) -/

/-- A waiting byte that is no command leaves the peer undefined (log 11). -/
theorem settled_peer_of_reject {s : State} {b : Byte} {e : DecodeReject} (h : s.serialIn = some b)
    (hd : decodeSerial b = .error e) : s.settled.peer = .undefined := by
  simp only [State.settled, peerTurn, h, hd]

theorem takeByte_selected (v : Byte) {r : PeerRegs} (s : State) (h : r.phase = .selected) :
    takeByte v r s = { s with peer := .known r, serialIn := some v } := by
  simp only [takeByte, h]

theorem takeByte_addressed (v : Byte) {r : PeerRegs} {n : Nat} (s : State) (h : r.phase = .addressed n) :
    takeByte v r s = { s with peer := .known (dataByte n v r) } := by
  simp only [takeByte, h]

theorem takeByte_meaningless (v : Byte) {r : PeerRegs} (s : State)
    (h : r.phase = .idle ∨ r.phase = .commanded ∨ r.phase = .keyScan) :
    takeByte v r s = { s with peer := .undefined } := by
  rcases h with h | h | h <;> simp only [takeByte, h]

/-- A first byte that is a command leaves the peer as that command does in any state with the same peer. -/
theorem settled_command_peer {v : Byte} {i : Instr} {r : PeerRegs} {s : State} (w : State)
    (hd : decodeSerial v = .ok i) (hr : r.phase = .selected) (hp : s.peer = .known r) :
    ∃ u, exec i s = .next u ∧ (takeByte v r w).settled.peer = u.peer := by
  obtain ⟨f, hf, -⟩ := exec_serial_onPeer hd
  refine ⟨s.onPeer f, hf s, ?_⟩
  rw [takeByte_selected v w hr, settled_byte rfl hd (hf _), onPeer_known _ f r rfl, onPeer_known s f r hp]

/-- Settles O15: the two edges of strobe as `perform` gives them, and the byte by the phase it comes in
(`run_sendByte_live`). -/
theorem peerFollowsATransaction : Obligations.PeerFollowsATransaction := by
  intro s r hp
  refine ⟨fun hs => ?_, fun hs => ?_, fun htxn hbits v => ?_⟩
  · rw [perform_strobeFall hp hs]
  · rw [perform_strobeRise hp hs]
  · obtain ⟨w, t, he, hrun, hw, ht, hpeer⟩ := run_sendByte_live v htxn hp hbits
    refine ⟨_, t, he, hrun, ht, fun hr => ⟨fun i hd => ?_, fun e hd => ?_⟩, fun n hr => ?_, fun hr => ?_⟩
    · rw [hpeer]
      exact settled_command_peer w hd hr hp
    · rw [hpeer, takeByte_selected v w hr]
      exact settled_peer_of_reject rfl hd
    · rw [hpeer, takeByte_addressed v w hr, settled_none (by exact hw)]
    · rw [hpeer, takeByte_meaningless v w hr, settled_none (by exact hw)]

end Sys2Proof.Machine
end

section

namespace Sys2Proof.Machine

/-! ### CONFIGURE, OPEN and CLOSE run to their end (40_pin_control.md R110 to R117) -/

/-- What CONFIGURE does to the block (R110). -/
theorem blockSteps_configure (s : State) :
    blockSteps traceConfigure s =
      { s with stbOe := true, clkOe := true, dioOe := true, ev := s.ev ++ [.dir PinSet.all true] } := rfl

/-- CONFIGURE has no violation to check (R112). -/
theorem checkViolations_configure (s : State) : checkViolations .configure s = s := rfl

/-- The marks of OPEN (R115). -/
theorem checkViolations_open_viol (s : State) :
    (checkViolations .openTxn s).viol =
      { s.viol with
        unconfigured := s.viol.unconfigured || !s.stbOe
        nestedOpen := s.viol.nestedOpen || !s.stbQ } := by
  simp [checkViolations_viol, opensTransaction]

/-- The marks of CLOSE (R117). -/
theorem checkViolations_close_viol (s : State) :
    (checkViolations .closeTxn s).viol =
      { s.viol with
        unconfigured := s.viol.unconfigured || !s.stbOe
        closeIdle := s.viol.closeIdle || s.stbQ } := by
  simp [checkViolations_viol, opensTransaction]

/-- Settles O21: the command runs to its end (`exec_run`), and its trace is the one `SetDir` of `blockSteps_configure`. -/
theorem configureCompletes : Obligations.ConfigureCompletes := by
  intro s h
  obtain ⟨t, he, hrun, -, ht⟩ := exec_run .configure 0x00 (.inr rfl) h
  refine ⟨_, t, he, hrun, ?_⟩
  rw [ht, traceOf, blockSteps_configure, checkViolations_configure]
  rfl

/-- Settles O23: the command runs to its end (`exec_run`); its trace is `OPEN_SEQ` (`blockSteps_openSeq`), its marks are
those of the acceptance. -/
theorem openCompletes : Obligations.OpenCompletes := by
  intro s h
  obtain ⟨t, he, hrun, -, ht⟩ := exec_run .openTxn 0x00 (.inr rfl) h
  refine ⟨_, t, he, hrun, ?_⟩
  rw [ht, traceOf, traceOpen, blockSteps_openSeq, checkViolations_open_viol]
  rfl

/-- Settles O24: as for OPEN, with `CLOSE_SEQ` (`blockSteps_closeSeq`). -/
theorem closeCompletes : Obligations.CloseCompletes := by
  intro s h
  obtain ⟨t, he, hrun, -, ht⟩ := exec_run .closeTxn 0x00 (.inr rfl) h
  refine ⟨_, t, he, hrun, ?_⟩
  rw [ht, traceOf, traceClose, blockSteps_closeSeq, checkViolations_close_viol]
  rfl

/-! ### A second CONFIGURE (R111) -/

/-- Directions that are already 1 are not changed by setting them. -/
theorem setOe_all_of_configured {s : State} (hc : s.Configured) : s.setOe PinSet.all true = s := by
  cases s
  obtain ⟨rfl, rfl, rfl⟩ := hc
  rfl

/-- On a configured block CONFIGURE only adds its event: no wire moves, so the peer sees nothing (`watch_same`). -/
theorem liveSteps_configure {s : State} (hc : s.Configured) (hi : s.serialIn = none) :
    liveSteps traceConfigure s = s.emit (.dir PinSet.all true) := by
  have hset : setDir PinSet.all true s = s.emit (.dir PinSet.all true) :=
    congrArg (State.emit _) (setOe_all_of_configured hc)
  have hperf : perform (.setDir PinSet.all true) s = s.emit (.dir PinSet.all true) := by
    show watch s (setDir PinSet.all true s) = _
    rw [hset]
    exact watch_same rfl rfl
  rw [traceConfigure, liveSteps_cons, liveSteps_nil, hperf, settled_none (by exact hi)]

/-- The wires show the latches and the directions, which no event and no field of the sequencer is among. -/
theorem wire_emit_withControl (e : Event) (vi : ViolSet) (il bu : Bool) (co : BitVec 3) (aq : Byte) (ix : BitVec 10)
    (s : State) (p : Pin) : ((s.emit e).withControl vi il bu co aq ix).wire p = s.wire p := by
  cases p <;> rfl

/-- Settles O22: the run with the peer watching (`exec_live`) is an acceptance without marks and the one event of
`liveSteps_configure`. -/
theorem configureIsIdempotent : Obligations.ConfigureIsIdempotent := by
  intro s h hc
  obtain ⟨he, hrun⟩ := exec_live .configure 0x00 (.inr rfl) h
  obtain ⟨hbusy, -, hserial⟩ := h
  rw [checkViolations_configure, traceOf, liveSteps_configure hc hserial] at hrun
  refine ⟨_, _, he, hrun, wire_emit_withControl _ _ _ _ _ _ _ s, rfl, ?_⟩
  rw [← hbusy]
  rfl

/-! ### The writers of the direction latches (R113) -/

theorem not_isPlain_of_oes {m : MicroOp} {q : PinSet} (h : oeAfterMicro q m ≠ q) : m.isPlain = false := by
  cases m with
  | setDir S d => rfl
  | setPin p v => exact absurd rfl h
  | wait => exact absurd rfl h
  | sample j => exact absurd rfl h
  | store k => exact absurd rfl h

/-- A micro-operation that changes the directions is CONFIGURE's one, or one of READ_KEYBOARD's two turns of DIO. -/
theorem micro_oes {s t : State} {m : MicroOp} (hm : s.currentMicro = some m)
    (hp : PeerOnly (advance (perform m s.afterRstLevel)) t) (hne : t.oes ≠ s.oes) :
    (s.curOp = Op.configure.code ∧ t.oes = ⟨true, true, true⟩) ∨
      (s.curOp = Op.readKeyboard.code ∧ s.idx.toNat = 50 ∧ t.oes = ⟨s.stbOe, s.clkOe, false⟩) ∨
      (s.curOp = Op.readKeyboard.code ∧ s.idx.toNat = 248 ∧ t.oes = ⟨s.stbOe, s.clkOe, true⟩) := by
  obtain ⟨-, hoes, -⟩ := micro_fields hp
  have hplain : m.isPlain = false := not_isPlain_of_oes (q := s.oes) (hoes ▸ hne)
  rcases currentMicro_special hm hplain with ⟨hop, rfl⟩ | ⟨hop, ⟨hidx, rfl⟩ | ⟨hidx, rfl⟩ | ⟨k, -, rfl⟩⟩
  · exact .inl ⟨hop, hoes⟩
  · exact .inr (.inl ⟨hop, hidx, hoes⟩)
  · exact .inr (.inr ⟨hop, hidx, hoes⟩)
  · exact absurd hoes hne

/-- Settles O53: of the cases of a step only a reset and a `SetDir` (`micro_oes`) change the directions. -/
theorem directionLatchWriters : Obligations.DirectionLatchWriters := by
  intro s t hst hne
  rcases step_cases hst with ⟨hr, rfl⟩ | ⟨-, -, hp⟩ | ⟨-, -, hb, m, hm, hp⟩ | ⟨-, -, -, -, rfl⟩ |
    ⟨-, -, -, w, ws, -, -, op, -, rfl⟩ | ⟨-, -, -, w, ws, -, -, rfl⟩
  case reset => exact .inl ⟨hr, rfl⟩
  case peer =>
    obtain ⟨-, -, -, -, -, ho, -⟩ := fields_of_block hp.block
    exact absurd ho hne
  case micro =>
    rcases micro_oes hm hp hne with hconf | hturnIn | hturnOut
    · exact .inr (.inl ⟨hb, hconf⟩)
    · exact .inr (.inr (.inl ⟨hb, hturnIn⟩))
    · exact .inr (.inr (.inr ⟨hb, hturnOut⟩))
  case idle => exact absurd rfl hne
  case accepted => exact absurd (accept_oes op w.arg _) hne
  case rejected => exact absurd rfl hne

end Sys2Proof.Machine
end

section

namespace Sys2Proof.Machine

/-! ### SEND_BYTE runs to its end (41_send_byte.md R125, R126, R131) -/

/-- The marks of SEND_BYTE (60_exceptions.md R173, R176). -/
theorem checkViolations_sendByte_viol (s : State) :
    (checkViolations .sendByte s).viol =
      { s.viol with
        unconfigured := s.viol.unconfigured || !s.stbOe
        sendIdle := s.viol.sendIdle || s.stbQ } := by
  simp [checkViolations_viol, opensTransaction]

/-- Settles O25: the command runs to its end (`exec_run`); its trace is the eight bit cells of `blockSteps_byteSeq`, its
marks are those of the acceptance. -/
theorem sendByteCompletes : Obligations.SendByteCompletes := by
  intro s v h
  obtain ⟨t, he, hrun, -, ht⟩ := exec_run .sendByte v (.inl rfl) h
  refine ⟨_, t, he, hrun, ?_⟩
  rw [ht, traceOf, traceSendByte, blockSteps_byteSeq, checkViolations_sendByte_viol]
  rfl

/-! ### What a trace leaves of the fields the framing discipline speaks of -/

theorem blockSteps_stbQ (ms : List MicroOp) (s : State) :
    (blockSteps ms s).stbQ = ms.foldl stbAfterMicro s.stbQ :=
  (List.foldl_hom State.stbQ fun u m => (performBlock_stbQ m u).symm).symm

theorem blockSteps_clkQ (ms : List MicroOp) (s : State) :
    (blockSteps ms s).clkQ = ms.foldl clkAfterMicro s.clkQ :=
  (List.foldl_hom State.clkQ fun u m => (performBlock_clkQ m u).symm).symm

theorem blockSteps_oes (ms : List MicroOp) (s : State) :
    (blockSteps ms s).oes = ms.foldl oeAfterMicro s.oes :=
  (List.foldl_hom State.oes fun u m => (performBlock_oes m u).symm).symm

/-- No micro-operation uses up a word or a planned reset level. -/
theorem blockSteps_environment (ms : List MicroOp) (s : State) :
    (blockSteps ms s).port = s.port ∧ (blockSteps ms s).rstPlan = s.rstPlan := by
  induction ms generalizing s with
  | nil => exact ⟨rfl, rfl⟩
  | cons m ms ih =>
    obtain ⟨-, -, -, -, -, -, -, -, -, -, hport, hrst⟩ := performBlock_frame m s
    obtain ⟨ihport, ihrst⟩ := ih (performBlock m s)
    exact ⟨ihport.trans hport, ihrst.trans hrst⟩

theorem configured_iff_oes (s : State) : s.Configured ↔ s.oes = PinSet.all := by
  simp [State.oes, PinSet.all]

/-- No operation takes a configured block out of its configuration (40_pin_control.md R113). -/
theorem oes_traceOf_configured (op : Op) (arg : Byte) :
    (traceOf op arg).foldl oeAfterMicro PinSet.all = PinSet.all := by
  rw [oes_traceOf]
  cases op <;> rfl

/-- An operation that keeps the framing discipline is accepted without a mark (60_exceptions.md R173 to R176). -/
theorem checkViolations_framed {op : Op} {s : State} (h : opFramed s.stbOe (!s.stbQ) op = true) :
    (checkViolations op s).viol = s.viol := by
  rw [checkViolations_viol]
  cases op <;> simp_all [opFramed, opensTransaction]

/-! ### A word taken by a configured block -/

/-- A configured idle block with strobe at `q`, the clock high and nothing marked: `State.ConfiguredIdle` where `q`,
else `State.InTransaction`. -/
abbrev State.RestsAt (q : Bool) (s : State) : Prop :=
  s.IdleQuiet ∧ s.Configured ∧ s.stbQ = q ∧ s.clkQ = true ∧ s.viol = ViolSet.empty

/-- `n` steps lead from `s` to `t`, where the words `ws` are left, and append the events `new`. -/
structure Runs (n : Nat) (ws : List Word) (new : List Event) (s t : State) : Prop where
  run : run n s = .next t
  port : t.port = ws
  ev : t.ev = s.ev ++ new

theorem Runs.trans {m n : Nat} {ws ws' : List Word} {new new' : List Event} {s t u : State}
    (h : Runs m ws new s t) (h' : Runs n ws' new' t u) : Runs (m + n) ws' (new ++ new') s u where
  run := (run_add m n h.run).trans h'.run
  port := h'.port
  ev := by rw [h'.ev, h.ev, List.append_assoc]

/-- A word that keeps the framing discipline is taken and runs to its end: the block rests again, strobe where the
operation leaves it (70_reset_and_hazards.md R209, R214). -/
theorem runs_framedWord {op : Op} {arg : Byte} {q : Bool} {s : State} {ws : List Word} {new : List Event}
    (ha : op.takesArg = true ∨ arg = 0x00) (h : s.RestsAt q) (hf : opFramed true (!q) op = true)
    (hp : s.port = hostWord 0 op.code arg :: ws)
    (hev : (blockSteps (traceOf op arg) { s with port := ws }).ev = s.ev ++ new) :
    ∃ t : State, t.RestsAt (!txnAfter (!q) op) ∧ Runs (1 + (traceOf op arg).length) ws new s t := by
  obtain ⟨hidle, hconf, hstb, hclk, hviol⟩ := h
  obtain ⟨op', t, hop, hrun, hserial, hblock⟩ := run_word hidle hp (legal_operation ha)
  rw [op_hostWord, ofCode_code] at hop
  cases hop
  rw [arg_hostWord] at hrun hblock
  obtain ⟨ev, viol, busy, -, stb, clk, oes, port, rst⟩ := run_fields hblock
  obtain ⟨hport, hrst⟩ := blockSteps_environment (traceOf op arg) { s with port := ws }
  have hmarks := checkViolations_framed (op := op) (s := { s with port := ws }) (by rw [hconf.1, hstb]; exact hf)
  refine ⟨t, ⟨⟨busy, rst.trans (hrst.trans hidle.2.1), hserial⟩, ?_, ?_, ?_, viol.trans (hmarks.trans hviol)⟩,
    hrun, port.trans hport, ev.trans hev⟩
  · have hoes : ({ s with port := ws } : State).oes = PinSet.all := (configured_iff_oes s).mp hconf
    rw [configured_iff_oes, oes, blockSteps_oes, hoes, oes_traceOf_configured]
  · rw [stb, blockSteps_stbQ, stb_traceOf, ← hstb]
  · rw [clk, blockSteps_clkQ, hclk, clk_traceOf]

theorem runs_open {s : State} {ws : List Word} (h : s.ConfiguredIdle) (hp : s.port = 0x0100 :: ws) :
    ∃ t : State, t.InTransaction ∧ Runs 3 ws [.pin .stb false, .delay] s t :=
  runs_framedWord (op := .openTxn) (.inr rfl) h rfl hp (congrArg State.ev (blockSteps_openSeq _))

theorem runs_sendByte {s : State} {v : Byte} {ws : List Word} (h : s.InTransaction)
    (hp : s.port = (0x0300 ||| v.setWidth 16) :: ws) :
    ∃ t : State, t.InTransaction ∧ Runs 49 ws (byteEvents v) s t :=
  runs_framedWord (op := .sendByte) (.inl rfl) h rfl (hp.trans (by rw [hostWord_sendByte]))
    (congrArg State.ev (blockSteps_byteSeq v _))

theorem runs_close {s : State} {ws : List Word} (h : s.InTransaction) (hp : s.port = 0x0200 :: ws) :
    ∃ t : State, t.ConfiguredIdle ∧ Runs 3 ws [.pin .stb true, .delay] s t :=
  runs_framedWord (op := .closeTxn) (.inr rfl) h rfl hp (congrArg State.ev (blockSteps_closeSeq _))

theorem runs_sendBytes (vs : List Byte) {s : State} {ws : List Word} (h : s.InTransaction)
    (hp : s.port = vs.map (fun v => 0x0300 ||| v.setWidth 16) ++ ws) :
    ∃ t : State, t.InTransaction ∧ Runs (49 * vs.length) ws (vs.flatMap byteEvents) s t := by
  induction vs generalizing s with
  | nil => exact ⟨s, h, rfl, hp, (List.append_nil _).symm⟩
  | cons v vs ih =>
    obtain ⟨t, ht, hfirst⟩ := runs_sendByte h hp
    obtain ⟨u, hu, hrest⟩ := ih ht hfirst.port
    refine ⟨u, hu, ?_⟩
    rw [List.length_cons, Nat.mul_succ, Nat.add_comm, List.flatMap_cons]
    exact hfirst.trans hrest

/-- OPEN, SEND_BYTE for each byte, CLOSE: the block is back outside a transaction (R129, R130). -/
theorem runs_transaction (vs : List Byte) {s : State} (h : s.ConfiguredIdle)
    (hp : s.port = 0x0100 :: vs.map (fun v => 0x0300 ||| v.setWidth 16) ++ [0x0200]) :
    ∃ t : State, t.ConfiguredIdle ∧
      Runs (6 + 49 * vs.length) []
        ([.pin .stb false, .delay] ++ vs.flatMap byteEvents ++ [.pin .stb true, .delay]) s t := by
  obtain ⟨t, ht, hopen⟩ := runs_open h hp
  obtain ⟨u, hu, hbytes⟩ := runs_sendBytes vs ht hopen.port
  obtain ⟨w, hw, hclose⟩ := runs_close hu hbytes.port
  refine ⟨w, hw, ?_⟩
  rw [show 6 + 49 * vs.length = 3 + 49 * vs.length + 3 by omega]
  exact (hopen.trans hbytes).trans hclose

/-- A run that leaves the block outside a transaction, with no word left, has ended clean
(70_reset_and_hazards.md R216). -/
theorem endedClean_of_configuredIdle {s : State} (h : s.ConfiguredIdle) (hp : s.port = []) : s.endedClean = true := by
  obtain ⟨⟨hbusy, -⟩, -, hstb, -, hviol⟩ := h
  simp [State.endedClean, State.ended, hp, hbusy, hviol, hstb]

/-- Settles O34: the words run one after another (`runs_transaction`), and their events are those of one whole frame
(`frameEvents_txn`). -/
theorem framedTransactionIsReceivedWhole : Obligations.FramedTransactionIsReceivedWhole := by
  intro s vs h hp
  obtain ⟨t, ht, hruns⟩ := runs_transaction vs h hp
  obtain ⟨-, ⟨-, -, hdio⟩, hstb, hclk, -⟩ := h
  obtain ⟨d, hframes⟩ := frameEvents_txn vs (frameStart s) hstb hdio hclk
  refine ⟨t, _, hruns.run, hruns.ev, ?_, endedClean_of_configuredIdle ht hruns.port⟩
  rw [frames, hframes]
  rfl

/-! ### The peer at a rising clock edge (41_send_byte.md R129) -/

/-- Settles O40: the edge gives the peer the DIO level or nothing (`perform_clockRise`); an eighth bit completes a byte
(`takeBit_last`), which is taken as the peer's phase says. -/
theorem peerTakesABitAtTheRisingEdge : Obligations.PeerTakesABitAtTheRisingEdge := by
  intro s r hp hc t v
  have ht : t = if s.wire .stb = .low ∧ s.dioOe = true then takeBit s.dioQ r (setPin .clk true s)
      else setPin .clk true s := perform_clockRise hp hc
  refine ⟨fun hs ho => ?_, fun hno => ?_⟩
  · rw [if_pos ⟨hs, ho⟩] at ht
    refine ⟨fun hl => ?_, fun hl => ?_⟩
    · rw [ht, takeBit_more _ _ hl]
      exact ⟨rfl, rfl⟩
    · rw [takeBit_last _ _ hl] at ht
      refine ⟨fun hr => ?_, fun n hr => ?_, fun hr => ?_⟩
      · rw [ht, takeByte_selected _ _ (by exact hr)]
        exact ⟨rfl, rfl⟩
      · rw [ht, takeByte_addressed _ _ (by exact hr)]
        exact ⟨rfl, rfl⟩
      · rw [ht, takeByte_meaningless _ _ (by exact hr)]
        exact ⟨rfl, rfl⟩
  · have hneg : ¬(s.wire .stb = .low ∧ s.dioOe = true) := by rcases hno with h | h <;> simp [h]
    rw [ht, if_neg hneg]
    exact ⟨hp, rfl⟩

/-! ### The block does not read the peer (R129, 10_state.md R37) -/

theorem resetEdge_withPeer (p : Peer) (x : Option Byte) (s : State) :
    (resetEdge (s.withPeer p x)).withoutPeer = (resetEdge s).withoutPeer := by
  rw [resetEdge_withoutPeer, resetEdge_withoutPeer]
  rfl

theorem advance_perform_withPeer (m : MicroOp) (p : Peer) (x : Option Byte) (s : State) :
    (advance (perform m (s.withPeer p x))).withoutPeer = (advance (perform m s)).withoutPeer := by
  rw [advance_perform, advance_perform, State.withPeer, performBlock_exchange]
  rfl

theorem accept_withPeer (op : Op) (arg : Byte) (p : Peer) (x : Option Byte) (s : State) :
    (accept op arg (s.withPeer p x)).withoutPeer = (accept op arg s).withoutPeer := by
  rw [accept_withoutPeer, accept_withoutPeer, checkViolations_viol, checkViolations_viol]
  rfl

theorem hostTurn_noWord {s : State} (h : s.port = []) : hostTurn s = .next s := by
  simp only [hostTurn, h]

/-- A step from a state with its peer exchanged, no command byte waiting in either: the same case of the step applies,
and its result differs in the peer alone. -/
theorem step_withPeer {s s' : State} (p : Peer) (hs : s.serialIn = none) (h : step s = .next s') :
    ∃ t', step (s.withPeer p none) = .next t' ∧ s'.withoutPeer = t'.withoutPeer := by
  have host (hr : s.rstLevel = false) (hb : s.busy = false) :
      step (s.withPeer p none) = hostTurn (s.afterRstLevel.withPeer p none) :=
    step_host (s := s.withPeer p none) hr rfl hb
  rcases step_cases h with ⟨hr, rfl⟩ | ⟨-, hb, -⟩ | ⟨hr, -, hb, m, hm, hp⟩ | ⟨hr, -, hb, hport, rfl⟩ |
    ⟨hr, -, hb, w, ws, hport, hl, op, hop, rfl⟩ | ⟨hr, -, hb, w, ws, hport, hl, rfl⟩
  case reset => exact ⟨_, step_reset hr, (resetEdge_withPeer p none s.afterRstLevel).symm⟩
  case peer =>
    rw [hs] at hb
    cases hb
  case micro =>
    obtain ⟨t', ht, hpt⟩ := busyTurn_some (s := s.afterRstLevel.withPeer p none) hm
    refine ⟨t', (step_busy (s := s.withPeer p none) hr rfl hb).trans ht, ?_⟩
    rw [hp.block, hpt.block, advance_perform_withPeer]
  case idle => exact ⟨_, (host hr hb).trans (hostTurn_noWord (s := s.afterRstLevel.withPeer p none) hport), rfl⟩
  case accepted =>
    obtain ⟨op', hop', ht⟩ := hostTurn_legal (s := s.afterRstLevel.withPeer p none) hport hl hb
    obtain rfl : op = op' := Option.some.inj (hop.symm.trans hop')
    exact ⟨_, (host hr hb).trans ht,
      (accept_withPeer op w.arg p none { s.afterRstLevel with port := ws }).symm⟩
  case rejected =>
    exact ⟨_, (host hr hb).trans (hostTurn_illegal (s := s.afterRstLevel.withPeer p none) hport hl hb), rfl⟩

/-- Settles O55: a state that differs in the peer alone is the state with its peer exchanged (`step_withPeer`). -/
theorem blockNeverReadsThePeer : Obligations.BlockNeverReadsThePeer := by
  intro s t hst hs ht s' hstep
  have heq : t = s.withPeer t.peer t.serialIn := eq_withPeer_of_block hst.symm
  rw [heq, ht]
  exact step_withPeer t.peer hs hstep

end Sys2Proof.Machine
end

section

namespace Sys2Proof.Machine

/-! ### READ_KEYBOARD runs to its end (42_read_keyboard.md R140 to R146) -/

/-- The marks of an operation whose trace begins with `OPEN_SEQ` (60_exceptions.md R172 to R174). -/
theorem checkViolations_opening_viol {op : Op} (ho : opensTransaction op = true) (s : State) :
    (checkViolations op s).viol =
      { s.viol with
        unconfigured := s.viol.unconfigured || !s.stbOe
        nestedOpen := s.viol.nestedOpen || !s.stbQ } := by
  have hop : op ≠ .configure ∧ op ≠ .closeTxn ∧ op ≠ .sendByte := by
    revert ho
    cases op <;> decide
  obtain ⟨hconf, hclose, hsend⟩ := hop
  simp [checkViolations_viol, ho, hconf, hclose, hsend]

/-- Settles O26: the command runs to its end (`exec_run`); its trace reads the four bytes of the draws into the key
buffer (`blockSteps_readKeyboard`), its marks are those of any operation that opens a transaction. -/
theorem readKeyboardCompletes : Obligations.ReadKeyboardCompletes := by
  intro s h hacc
  obtain ⟨t, he, hrun, -, ht⟩ := exec_run .readKeyboard 0x00 (.inr rfl) h
  rw [traceOf_length] at hrun ht
  refine ⟨_, t, he, hrun, ?_⟩
  rw [ht, traceOf, blockSteps_readKeyboard hacc, checkViolations_opening_viol rfl, readKeyboardEvents]
  simp only [List.append_assoc]
  rfl

/-- The number of events of READ_KEYBOARD, of delays and of rising clock edges among them (R146). -/
theorem readKeyboardEvents_figures (s : State) :
    (readKeyboardEvents s).length = 251 ∧ (readKeyboardEvents s).countP (· == .delay) = 123 ∧
      (readKeyboardEvents s).countP (· == .pin .clk true) = 40 := by
  simp only [readKeyboardEvents, List.length_append, List.countP_append, byteEvents_figures, scanByteEvents_figures]
  exact ⟨rfl, rfl, rfl⟩

/-- Settles O28: the events are those of `blockSteps_readKeyboard`, in which the peer receives the read-key-scan command
alone, since DIO is an input while the block reads (`frameEvents_readKeyboard`). -/
theorem readKeyboardSendsOneFrame : Obligations.ReadKeyboardSendsOneFrame := by
  intro s h hacc
  obtain ⟨hidle, ⟨hstbOe, -, hdio⟩, hstb, -, hnone⟩ := h
  obtain ⟨t, he, hrun, -, ht⟩ := exec_run .readKeyboard 0x00 (.inr rfl) hidle
  obtain ⟨hev, hviol, -⟩ := run_fields ht
  rw [traceOf_length] at hrun
  rw [traceOf, blockSteps_readKeyboard hacc] at hev
  have hmarks : (checkViolations .readKeyboard s).viol = s.viol :=
    checkViolations_framed (by rw [hstbOe, hstb]; rfl)
  refine ⟨_, t, readKeyboardEvents s, he, hrun, hev, ?_, hviol.trans (hmarks.trans hnone),
    readKeyboardEvents_figures s⟩
  rw [frames, frameEvents_readKeyboard s (frameStart s) hstb hdio]
  rfl

end Sys2Proof.Machine
end

section

namespace Sys2Proof.Machine

/-! ### The brightness encoder (43_display_commands.md R156) -/

/-- The base 0x88 has no bit among the three of a level, so OR is addition. -/
theorem brightnessBase_or_level : ∀ v : Byte, v ≤ Config.maxBright → Ser.brightnessBase ||| v = 0x88 + v := by decide

theorem encBright_level {v : Byte} (hge : 1 ≤ v) (hle : v ≤ Config.maxBright) : encBright v = 0x88 + v := by
  have hpos : v ≠ 0 := by bv_omega
  rw [encBright, if_neg hpos, if_pos hle, brightnessBase_or_level v hle]

/-- A value above the greatest level is clamped to it without a complaint (R157). -/
theorem encBright_clamped {v : Byte} (hge : 8 ≤ v) : encBright v = 0x8F := by
  have hpos : v ≠ 0 := by bv_omega
  have habove : ¬ v ≤ Config.maxBright := by
    rw [Config.maxBright]
    bv_omega
  rw [encBright, if_neg hpos, if_neg habove]
  rfl

/-- Both bytes the encoder starts from are commands with bit 7 set, which is the level DIO ends at. -/
theorem encBright_lastBit (v : Byte) : (encBright v).getLsbD 7 = true := by
  rw [encBright]
  split
  · rfl
  · rw [BitVec.getLsbD_or]
    rfl

/-- Settles O5: the three ranges are the three cases of the encoder. -/
theorem brightnessEncoderTable : Obligations.BrightnessEncoderTable :=
  ⟨rfl, fun _ => encBright_level, fun _ => encBright_clamped⟩

/-! ### SET_BRIGHTNESS and CLEAR_DISPLAY run to their end (R155, R159) -/

/-- Settles O29: the command runs to its end (`exec_run`); its trace sends the encoded byte (`blockSteps_setBrightness`),
whose last bit is 1, and its marks are those of any operation that opens a transaction. -/
theorem setBrightnessCompletes : Obligations.SetBrightnessCompletes := by
  intro s v h
  obtain ⟨t, he, hrun, -, ht⟩ := exec_run .setBrightness v (.inl rfl) h
  rw [traceOf_length] at hrun ht
  refine ⟨_, t, he, hrun, ?_⟩
  rw [ht, traceOf, blockSteps_setBrightness, encBright_lastBit, checkViolations_opening_viol rfl, oneByteEvents]
  simp only [List.append_assoc]
  rfl

/-- The events of CLEAR_DISPLAY, its two transactions one after another (R159). -/
theorem clearDisplayEvents_eq :
    clearDisplayEvents =
      [.pin .stb false, .delay] ++ byteEvents 0x40 ++ [.pin .stb true, .delay]
        ++ [.pin .stb false, .delay] ++ byteEvents 0xC0 ++ (List.replicate 16 (byteEvents 0x00)).flatten
        ++ [.pin .stb true, .delay] := by
  simp only [clearDisplayEvents, oneByteEvents, List.flatMap_def, List.map_cons, List.map_replicate,
    List.flatten_cons, List.append_assoc]

/-- Settles O31: the command runs to its end (`exec_run`); its trace sends the two transactions
(`blockSteps_clearDisplay`), the last bit sent being a 0, and its marks are those of any operation that opens a
transaction. -/
theorem clearDisplayCompletes : Obligations.ClearDisplayCompletes := by
  intro s h
  obtain ⟨t, he, hrun, -, ht⟩ := exec_run .clearDisplay 0x00 (.inr rfl) h
  rw [traceOf_length] at hrun ht
  refine ⟨_, t, he, hrun, ?_⟩
  rw [ht, traceOf, blockSteps_clearDisplay, checkViolations_opening_viol rfl, clearDisplayEvents_eq]
  simp only [List.append_assoc]
  rfl

/-! ### The frames they send (R158, R160) -/

/-- From a configured idle block an operation that opens a transaction runs to its end without a mark, and `new` are
the events of its trace. -/
theorem exec_run_unmarked {op : Op} {arg : Byte} (ha : op.takesArg = true ∨ arg = 0x00)
    (ho : opensTransaction op = true) {s : State} (h : s.ConfiguredIdle) {new : List Event}
    (hev : (blockSteps (traceOf op arg) s).ev = s.ev ++ new) :
    ∃ t, exec (op.instr arg) s = .next (accept op arg s) ∧
      run (traceOf op arg).length (accept op arg s) = .next t ∧ t.ev = s.ev ++ new ∧ t.viol = ViolSet.empty := by
  obtain ⟨hidle, ⟨hstbOe, -⟩, hstb, -, hnone⟩ := h
  obtain ⟨t, he, hrun, -, ht⟩ := exec_run op arg ha hidle
  obtain ⟨htev, htviol, -⟩ := run_fields ht
  refine ⟨t, he, hrun, htev.trans hev, ?_⟩
  rw [htviol, checkViolations_opening_viol ho, hstbOe, hstb, hnone]
  rfl

theorem oneByteEvents_eq (v : Byte) :
    oneByteEvents v = [.pin .stb false, .delay] ++ [v].flatMap byteEvents ++ [.pin .stb true, .delay] := by
  rw [List.flatMap_singleton, oneByteEvents]

/-- The number of events of a transaction of one byte, of delays and of rising writes of the clock among them (R158). -/
theorem oneByteEvents_figures (v : Byte) :
    (oneByteEvents v).length = 52 ∧ (oneByteEvents v).countP (· == .delay) = 26 ∧
      (oneByteEvents v).countP (· == .pin .clk true) = 8 := by
  simp only [oneByteEvents, List.length_append, List.countP_append, byteEvents_figures]
  exact ⟨rfl, rfl, rfl⟩

/-- Settles O30: the events are those of one transaction of one byte, which is received as one frame
(`frameEvents_txn`). -/
theorem setBrightnessSendsOneFrame : Obligations.SetBrightnessSendsOneFrame := by
  intro s v h
  obtain ⟨t, he, hrun, hev, hviol⟩ := exec_run_unmarked (op := .setBrightness) (.inl rfl) rfl h
    (congrArg State.ev (blockSteps_setBrightness v s))
  rw [traceOf_length] at hrun
  obtain ⟨-, ⟨-, -, hdio⟩, hstb, hclk, -⟩ := h
  refine ⟨_, t, oneByteEvents (encBright v), he, hrun, hev, ?_, hviol, oneByteEvents_figures (encBright v)⟩
  obtain ⟨d, hframe⟩ := frameEvents_txn [encBright v] (frameStart s) hstb hdio hclk
  rw [frames, oneByteEvents_eq, hframe]
  rfl

/-- Settles O32: the events are those of two transactions, each received as one frame (`frameEvents_txn`). -/
theorem clearDisplaySendsTwoFrames : Obligations.ClearDisplaySendsTwoFrames := by
  intro s h
  obtain ⟨t, he, hrun, hev, hviol⟩ := exec_run_unmarked (op := .clearDisplay) (.inr rfl) rfl h
    (congrArg State.ev (blockSteps_clearDisplay s))
  rw [traceOf_length] at hrun
  obtain ⟨-, ⟨-, -, hdio⟩, hstb, hclk, -⟩ := h
  refine ⟨_, t, clearDisplayEvents, he, hrun, hev, ?_, hviol⟩
  obtain ⟨d, hfirst⟩ := frameEvents_txn [0x40] (frameStart s) hstb hdio hclk
  obtain ⟨d', hsecond⟩ := frameEvents_txn (0xC0 :: List.replicate 16 0x00)
    { frameStart s with dio := d, cur := [0x40], bits := [], out := [[0x40]] } hstb hdio hclk
  rw [frames, clearDisplayEvents, List.foldl_append, oneByteEvents_eq, hfirst]
  exact congrArg FrameState.out hsecond

/-! ### The peer's display memory after CLEAR_DISPLAY (R161, R162) -/

/-- An acceptance that keeps the framing discipline on an unmarked block leaves the peer alone too
(60_exceptions.md R172, R191). -/
theorem checkViolations_unmarked {op : Op} {s : State} (hf : opFramed s.stbOe (!s.stbQ) op = true)
    (hnone : s.viol = ViolSet.empty) : checkViolations op s = s := by
  have hviol : (checkViolations op s).viol = s.viol := checkViolations_framed hf
  rcases checkViolations_peer op s with ⟨hpeer, -⟩ | ⟨-, hmarked⟩
  · rw [checkViolations_frame, hviol, hpeer]
  · exact absurd (hviol.trans hnone) hmarked

/-- The trace of CLEAR_DISPLAY is a command transaction and a data transaction (R159). -/
theorem traceClearDisplay_eq :
    traceClearDisplay =
      (openSeq ++ byteSeq Ser.addrAutoInc ++ closeSeq)
        ++ (openSeq ++ byteSeq Ser.addressBase ++ byteRun 0x00 Config.displayCells ++ closeSeq) := by
  simp only [traceClearDisplay, List.append_assoc]

/-- A peer in auto-increment mode that has just taken set-address 0. -/
def autoIncAtZero (r : PeerRegs) : PeerRegs :=
  { r with mode := .set .autoInc, ptr := .cell 0, phase := .addressed 0, bits := [] }

/-- A peer whose transaction has ended (41_send_byte.md R129). -/
def PeerRegs.released (r : PeerRegs) : PeerRegs := { r with phase := .idle, bits := [] }

@[simp] theorem released_mode (r : PeerRegs) : r.released.mode = r.mode := rfl

@[simp] theorem released_cells (r : PeerRegs) : r.released.cells = r.cells := rfl

/-- The registers a known peer ends CLEAR_DISPLAY with: in auto-increment mode it has taken sixteen zero bytes from cell
0 on (R159; `liveSteps_clearDisplay`). -/
def clearedRegs (r : PeerRegs) : PeerRegs :=
  (dataBytes 0x00 Config.displayCells 0 (autoIncAtZero r)).released

theorem liveSteps_clearDisplay {s : State} {r : PeerRegs} (h : s.Between r) :
    (liveSteps traceClearDisplay s).peer = .known (clearedRegs r) := by
  obtain ⟨d, e, hmode⟩ := liveSteps_commandTxn Ser.addrAutoInc (i := .serAddrAutoInc) rfl (fun _ => rfl) h
  obtain ⟨d', e', hdata⟩ := liveSteps_dataTxn Ser.addressBase 0x00 Config.displayCells (a := 0) rfl
    (between_withWires h d { r with mode := .set .autoInc, phase := .idle, bits := [] } e)
  rw [traceClearDisplay_eq, liveSteps_append, hmode]
  exact congrArg State.peer hdata

theorem clearedRegs_addrMode (r : PeerRegs) : (clearedRegs r).addrMode = .autoInc := by
  apply addrMode_set
  rw [clearedRegs, released_mode, dataBytes_mode, autoIncAtZero]

/-- The sixteen bytes fill the cells from 0 to 15, whatever they held (`dataRun_read`). -/
theorem clearedRegs_read (r : PeerRegs) (c : BitVec 4) : (clearedRegs r).cells.read c.toNat = some 0x00 := by
  have hc : c.toNat < Config.displayCells := c.isLt
  have hread := dataRun_read (List.replicate Config.displayCells (0x00 : Byte)) 0 (r := autoIncAtZero r) (a := 0)
    rfl (fun _ => rfl) (by decide) c.toNat
  rw [List.length_replicate, Nat.zero_add, Nat.sub_zero, if_pos ⟨Nat.zero_le _, hc⟩,
    List.getElem?_replicate_of_lt hc] at hread
  rw [clearedRegs, released_cells, dataBytes_eq_foldl, ← dataRun, hread]

theorem withControl_peer (vi : ViolSet) (il bu : Bool) (co : BitVec 3) (aq : Byte) (ix : BitVec 10) (s : State) :
    (s.withControl vi il bu co aq ix).peer = s.peer := rfl

/-- Settles O33: the run with the peer watching (`exec_live`) is an acceptance without marks, a mode transaction and a
run of sixteen data bytes from cell 0. -/
theorem clearDisplayBlanksEveryCell : Obligations.ClearDisplayBlanksEveryCell := by
  intro s r h hpeer
  obtain ⟨hidle, hconf, hstb, hclk, hnone⟩ := h
  obtain ⟨he, hrun⟩ := exec_live .clearDisplay 0x00 (.inr rfl) hidle
  have hsame : checkViolations .clearDisplay s = s :=
    checkViolations_unmarked (by rw [hconf.1, hstb]; rfl) hnone
  have hlive : (liveSteps traceClearDisplay s).peer = .known (clearedRegs r) :=
    liveSteps_clearDisplay ⟨hconf, hidle.2.2, hstb, hclk, hpeer⟩
  rw [traceOf_length, hsame, traceOf] at hrun
  refine ⟨_, _, clearedRegs r, he, hrun, ?_, clearedRegs_addrMode r, fun c => ⟨clearedRegs_read r c, ?_⟩⟩
  · rw [withControl_peer, hlive]
  · rw [PeerRegs.cell, clearedRegs_read, Option.getD_some]

end Sys2Proof.Machine
end

section

namespace Sys2Proof.Machine

/-! ### Which agent moves (60_exceptions.md R179, R188, R192) -/

theorem peerTurn_decoded {s : State} {b : Byte} {i : Instr} (hs : s.serialIn = some b) (hd : decodeSerial b = .ok i) :
    peerTurn s = exec i { s with serialIn := none } := by
  simp only [peerTurn, hs, hd]

/-- Settles O8: with a command byte waiting the step is the peer's turn, which performs the decoded command. -/
theorem stepRunsThePeersCommand : Obligations.StepRunsThePeersCommand := by
  intro s b i hr hs hd
  rw [step_peer hr (Option.isSome_of_eq_some hs)]
  exact peerTurn_decoded (s := s.afterRstLevel) hs hd

/-- Settles O10: the step of an idle block is the host's turn, which does nothing where no word is presented. -/
theorem idleBlockWaits : Obligations.IdleBlockWaits := by
  intro s hr hs hb hp
  rw [step_host hr hs hb]
  exact hostTurn_noWord (s := s.afterRstLevel) hp

/-- Settles O11: the step of an idle block is the host's turn, which rejects a word of any illegal class
(`hostTurn_illegal`). -/
theorem illegalWordIsRejected : Obligations.IllegalWordIsRejected := by
  intro s w ws hr hs hb hp hl
  rw [step_host hr hs hb]
  exact hostTurn_illegal (s := s.afterRstLevel) hp hl hb

/-! ### Serial commands (60_exceptions.md R187) -/

/-- The outcome of a command at a known peer. -/
theorem next_onPeer_known (f : PeerRegs → PeerRegs) {s : State} {r : PeerRegs} (h : s.peer = .known r) :
    (.next (s.onPeer f) : Host.Outcome State Fault Refusal) = .next { s with peer := .known (f r) } := by
  rw [onPeer_known s f r h]

/-- Settles O36: each mode command is a change of the registers of a known peer. -/
theorem modeCommandsComplete : Obligations.ModeCommandsComplete := by
  intro s r hp
  exact ⟨next_onPeer_known _ hp, next_onPeer_known _ hp⟩

/-- Settles O37: both commands are a change of the registers of a known peer. -/
theorem keyScanAndAddressCommandsComplete : Obligations.KeyScanAndAddressCommandsComplete := by
  intro s r a hp
  exact ⟨next_onPeer_known _ hp, next_onPeer_known _ hp⟩

/-- Settles O38: both commands are a change of the registers of a known peer, which then show the display off, or the
brightness commanded. -/
theorem displayCommandsComplete : Obligations.DisplayCommandsComplete := by
  intro s r b hp
  exact ⟨⟨_, next_onPeer_known _ hp, rfl, rfl⟩, ⟨_, next_onPeer_known _ hp, rfl, rfl⟩⟩

/-- Settles O39: a serial command that decodes is one change of the peer's registers (`exec_serial_onPeer`), which
writes the peer alone and does nothing to an undefined one. -/
theorem serialCommandsLeaveTheBlockAlone : Obligations.SerialCommandsLeaveTheBlockAlone := by
  intro s b i hd
  obtain ⟨f, hexec, -⟩ := exec_serial_onPeer hd
  refine ⟨s.onPeer f, hexec s, onPeer_frame f s, fun hu => ?_⟩
  rw [onPeer_undefined s f hu, hu]

/-! ### Reset (60_exceptions.md R177, 70_reset_and_hazards.md R201) -/

theorem add_resetAbort_if (c : Bool) (v : ViolSet) :
    (if c then v.add .resetAbort else v) = { v with resetAbort := v.resetAbort || c } := by
  cases c with
  | false => rw [Bool.or_false]; rfl
  | true => rw [Bool.or_true]; rfl

/-- The outputs after a reset edge are those of the reset state. -/
theorem resetEdge_outputs (s : State) :
    (resetEdge s).statusO = State.reset.statusO ∧ (resetEdge s).keybufO = State.reset.keybufO := by
  simp only [State.statusO, State.keybufO]
  exact ⟨rfl, rfl⟩

/-- Settles O14: the step is a reset edge; its outputs are those of the reset state, and what it leaves of the block and
the ghosts is `resetEdge_withoutPeer`, which marks V_RESET_ABORT where a command ran or strobe was low (R177). -/
theorem resetEdgeLeavesResetValues : Obligations.ResetEdgeLeavesResetValues := by
  intro s hr
  obtain ⟨hstatus, hkeybuf⟩ := resetEdge_outputs s.afterRstLevel
  have hsync : (resetEdge s.afterRstLevel).sync = s.sync := markIf_sync _ _ _
  refine ⟨_, step_reset hr, hstatus.trans (by decide), hkeybuf.trans (by decide), ?_⟩
  rw [resetEdge_withoutPeer, add_resetAbort_if, hsync, Bool.or_assoc]
  rfl

/-! ### Marks at an acceptance (60_exceptions.md R172 to R176, R191) -/

/-- An operation an idle block is given is accepted, with an argument where it takes one. -/
theorem exec_instr_idle (op : Op) (arg : Byte) {s : State} (h : s.busy = false) :
    exec (op.instr arg) s = .next (accept op (if op.takesArg then arg else 0x00) s) := by
  rw [exec_instr, takeCommand_idle _ _ h]

theorem opensTransaction_iff (op : Op) :
    opensTransaction op = true ↔ op ∈ [.openTxn, .readKeyboard, .setBrightness, .clearDisplay] := by
  cases op <;> decide

/-- Settles O19: the operation is accepted (`exec_instr_idle`), and `checkViolations_viol` gives each kind's mark. -/
theorem acceptanceMarksViolations : Obligations.AcceptanceMarksViolations := by
  intro s op arg hb
  refine ⟨_, exec_instr_idle op arg hb, ?_⟩
  rw [accept_viol, checkViolations_viol, ← opensTransaction_iff]
  simp only [ViolSet.has, Bool.or_eq_true, Bool.and_eq_true, Bool.not_eq_true', decide_eq_true_iff, and_self]

/-- Settles O20: an acceptance leaves peer and marks as they were, or the peer undefined and a mark set
(`checkViolations_peer`); if in the second case the mark is an old one, the peer was undefined before. -/
theorem acceptanceLeavesThePeerOrTheMarkUndefinesIt : Obligations.AcceptanceLeavesThePeerOrTheMarkUndefinesIt := by
  intro s op arg hb hinv
  refine ⟨_, exec_instr_idle op arg hb, ?_⟩
  rw [accept_viol, accept_peer]
  rcases checkViolations_peer op s with ⟨hpeer, hviol⟩ | ⟨hpeer, hmarked⟩
  · exact ⟨fun _ => hpeer, fun hne => absurd hviol hne⟩
  · exact ⟨fun hold => hpeer.trans (hinv (hold ▸ hmarked)).symm, fun _ => hpeer⟩

/-! ### The peer after a mark (60_exceptions.md R191) -/

/-- A change that adds no mark and leaves an undefined peer undefined keeps the invariant. -/
theorem peerInv_of_viol_eq {s t : State} (hv : t.viol = s.viol) (hp : s.peer = .undefined → t.peer = .undefined)
    (h : PeerInv s) : PeerInv t :=
  fun hmarked => hp (h (hv ▸ hmarked))

theorem peerInv_markIf {s : State} (c : Bool) (k : Violation) (h : PeerInv s) : PeerInv (s.markIf c k) := by
  cases c with
  | false => exact h
  | true => exact fun _ => mark_peer s k

theorem peerInv_checkViolations {s : State} (op : Op) (h : PeerInv s) : PeerInv (checkViolations op s) :=
  peerInv_markIf _ _ (peerInv_markIf _ _ (peerInv_markIf _ _ (peerInv_markIf _ _ h)))

theorem perform_undefined (m : MicroOp) {s : State} (h : s.peer = .undefined) : (perform m s).peer = .undefined := by
  obtain ⟨-, -, -, -, -, -, -, -, hpeer, -⟩ := performBlock_frame m s
  rw [perform, watch_undefined s (hpeer.trans h), hpeer, h]

/-- Settles O49: a reset and an acceptance mark by `markIf`, which undefines the peer, and no other case of a step marks
anything or makes an undefined peer known. -/
theorem stepKeepsTheMarkedPeerUndefined : Obligations.StepKeepsTheMarkedPeerUndefined := by
  intro s t h hst
  rcases step_cases hst with ⟨-, rfl⟩ | ⟨-, -, hp⟩ | ⟨-, -, -, m, -, hp⟩ | ⟨-, -, -, -, rfl⟩ |
    ⟨-, -, -, w, ws, -, -, op, -, rfl⟩ | ⟨-, -, -, w, ws, -, -, rfl⟩
  case reset => exact peerInv_markIf (s := s.afterRstLevel) (s.busy || !s.stbQ) .resetAbort h
  case peer =>
    obtain ⟨-, -, -, -, -, -, -, -, hviol, -⟩ := fields_of_block hp.block
    exact peerInv_of_viol_eq hviol hp.undefined h
  case micro =>
    obtain ⟨-, -, -, hviol, -⟩ := micro_fields hp
    exact peerInv_of_viol_eq hviol (fun hu => hp.undefined (perform_undefined m hu)) h
  case idle => exact h
  case accepted => exact peerInv_checkViolations (s := { s.afterRstLevel with port := ws }) op h
  case rejected => exact h

/-! ### The block never stops, and every command ends (60_exceptions.md R171, R192) -/

/-- Settles O45: a step stops only where a busy block has no micro-operation at `idx` (`step_total`). -/
theorem stepNeverStops : Obligations.StepNeverStops := by
  intro s h
  rcases step_total s with ⟨t, hst, -⟩ | ⟨-, hb, hm⟩
  · exact ⟨t, hst⟩
  · exact absurd (h hb) (Nat.not_lt.mpr (currentMicro_none.mp hm))

/-- Settles O56: a busy block performs what is left of its trace (`run_micros`), which is no longer than
CLEAR_DISPLAY's, and is idle then. -/
theorem everyCommandTerminates : Obligations.EveryCommandTerminates := by
  intro s hb hq h
  have hleft : s.trace.drop s.idx.toNat ≠ [] := by
    rw [ne_eq, List.drop_eq_nil_iff]
    exact Nat.not_le.mpr (h hb)
  obtain ⟨t, hrun, -, ht⟩ := run_micros _ [] hb hq (List.append_nil _).symm hleft
  refine ⟨_, t, ?_, hrun, ?_⟩
  · rw [List.length_drop]
    exact (Nat.sub_le _ _).trans (trace_length_le s)
  · rw [eq_withPeer_of_block ht]
    rfl

/-! ### The levels the peer answers with (60_exceptions.md R190) -/

/-- Eight planned levels that are the bits of a byte make that byte. -/
theorem drawnByte_zero_of_plan {s : State} {v : Byte} {rest : List Bool} (h : s.dioPlan = bitsOfByte v ++ rest) :
    s.drawnByte 0 = v := by
  have hbits : s.drawnByte 0 = byteOfBits (bitsOfByte v) := by
    simp [State.drawnByte, State.nthDraw, h, bitsOfByte]
  rw [hbits, byteOfBits_bitsOfByte]

/-- The same after `n` levels have been drawn. -/
theorem drawnByte_of_plan {s : State} {n : Nat} {v : Byte} {rest : List Bool}
    (h : s.dioPlan.drop n = bitsOfByte v ++ rest) : s.drawnByte n = v :=
  (drawnByte_afterDraws s n 0).symm.trans (drawnByte_zero_of_plan (s := s.afterDraws n) h)

/-- Settles O27: READ_KEYBOARD stores the bytes of the draws (`blockSteps_readKeyboard`), and each is the byte whose
bits stand in the plan there. -/
theorem readKeyboardReturnsThePeersBytes : Obligations.ReadKeyboardReturnsThePeersBytes := by
  intro s R0 R1 R2 R3 rest h hacc hplan
  simp only [List.append_assoc] at hplan
  have h0 : s.drawnByte 0 = R0 := drawnByte_of_plan hplan
  have h1 : s.drawnByte 8 = R1 := drawnByte_of_plan (congrArg (List.drop 8) hplan)
  have h2 : s.drawnByte 16 = R2 := drawnByte_of_plan (congrArg (List.drop 16) hplan)
  have h3 : s.drawnByte 24 = R3 := drawnByte_of_plan (congrArg (List.drop 24) hplan)
  obtain ⟨t, he, hrun, -, ht⟩ := exec_run .readKeyboard 0x00 (.inr rfl) h
  obtain ⟨-, -, hbusy, hkeybuf, -, -, hoes, -⟩ := run_fields ht
  rw [traceOf_length] at hrun
  rw [traceOf, blockSteps_readKeyboard hacc] at hkeybuf hoes
  have hread : t.keybuf = #v[R0, R1, R2, R3] := by rw [hkeybuf, h0, h1, h2, h3]
  refine ⟨_, t, he, hrun, hbusy, congrArg PinSet.dio hoes, hread, ?_⟩
  rw [State.keybufO, hread]
  rfl

end Sys2Proof.Machine
end

section

namespace Sys2Proof.Machine

/-! ### The framing discipline (70_reset_and_hazards.md R209, R214) -/

theorem framed_illegal {w : Word} (c x : Bool) (ws : List Word) (hl : legal w = false) :
    framed c x (w :: ws) = framed c x ws := by
  simp [framed, hl]

theorem framed_legal {w : Word} {op : Op} (c x : Bool) (ws : List Word) (hl : legal w = true)
    (hc : Op.ofCode w.op = some op) :
    framed c x (w :: ws) = (opFramed c x op && framed (c || op == .configure) (txnAfter x op) ws) := by
  simp [framed, hl, hc]

/-- Strobe is driven after a trace where it was before, or where the trace is CONFIGURE's (40_pin_control.md R113). -/
theorem stbOe_traceOf (op : Op) (arg : Byte) (q : PinSet) :
    ((traceOf op arg).foldl oeAfterMicro q).stb = (q.stb || op == .configure) := by
  rw [oes_traceOf]
  cases op <;> simp

theorem mem_rstPlan_of_rstLevel {s : State} (h : s.rstLevel = true) : true ∈ s.rstPlan := by
  cases hplan : s.rstPlan with
  | nil => rw [rstLevel_quiet hplan] at h; cases h
  | cons b bs =>
    rw [State.rstLevel, hplan, List.headD_cons] at h
    exact h ▸ List.mem_cons_self

theorem framedInv_afterRstLevel {s : State} (h : FramedInv s) : FramedInv s.afterRstLevel := by
  obtain ⟨hviol, hplan, hport⟩ := h
  exact ⟨hviol, fun hmem => hplan (List.mem_of_mem_tail hmem), hport⟩

theorem framedInv_of_block {s t : State} (ht : t.withoutPeer = s.withoutPeer) (h : FramedInv s) : FramedInv t := by
  rw [eq_withPeer_of_block ht]
  exact h

/-- A micro-operation marks nothing, takes no word, and leaves the pins the running command ends with
(`micro_finals`). -/
theorem framedInv_micro {s t : State} {m : MicroOp} (hb : s.busy = true) (hm : s.currentMicro = some m)
    (hp : PeerOnly (advance (perform m s.afterRstLevel)) t) (h : FramedInv s) : FramedInv t := by
  obtain ⟨hviol, hplan, hport⟩ := framedInv_afterRstLevel h
  obtain ⟨-, -, -, hv, hw, hr, -⟩ := micro_fields hp
  obtain ⟨-, hoes, hstb⟩ := micro_finals hb hm hp
  refine ⟨hv.trans hviol, hr ▸ hplan, ?_⟩
  rw [hoes, hstb, hw]
  exact hport

/-- A rejected word has no part in the discipline (60_exceptions.md R170). -/
theorem framedInv_reject {s : State} {w : Word} {ws : List Word} (hp : s.port = w :: ws) (hl : legal w = false)
    (h : FramedInv s) : FramedInv (raiseIllegal w { s with port := ws }) := by
  obtain ⟨hviol, hplan, hport⟩ := h
  rw [hp, framed_illegal _ _ _ hl] at hport
  exact ⟨hviol, hplan, hport⟩

/-- A word that keeps the discipline is accepted without a mark (`checkViolations_framed`), and its trace leaves the
pins where the discipline goes on from. -/
theorem framedInv_accept {s : State} {w : Word} {ws : List Word} {op : Op} (hb : s.busy = false)
    (hp : s.port = w :: ws) (hl : legal w = true) (hc : Op.ofCode w.op = some op) (h : FramedInv s) :
    FramedInv (accept op w.arg { s with port := ws }) := by
  obtain ⟨hviol, hplan, hport⟩ := h
  rw [hp, framed_legal _ _ _ hl hc, State.finalOes, State.finalStb, rest_idle hb, Bool.and_eq_true] at hport
  obtain ⟨hop, hrest⟩ := hport
  refine ⟨(checkViolations_framed (s := { s with port := ws }) hop).trans hviol, ?_, ?_⟩
  · rw [accept_rstPlan]
    exact hplan
  · rw [State.finalOes, State.finalStb, rest_accept, accept_oes, accept_stbQ, accept_port, stbOe_traceOf, stb_traceOf,
      Bool.not_not]
    exact hrest

/-- The invariant of the framing discipline is kept by every step: no reset comes, and of the other cases only an
acceptance could mark. -/
theorem step_framedInv {s t : State} (h : FramedInv s) (hst : step s = .next t) : FramedInv t := by
  have hu : FramedInv s.afterRstLevel := framedInv_afterRstLevel h
  have ⟨_, hnoReset, _⟩ := h
  rcases step_cases hst with ⟨hr, -⟩ | ⟨-, -, hp⟩ | ⟨-, -, hb, m, hm, hp⟩ | ⟨-, -, -, -, rfl⟩ |
    ⟨-, -, hb, w, ws, hport, hl, op, hc, rfl⟩ | ⟨-, -, hb, w, ws, hport, hl, rfl⟩
  case reset => exact absurd (mem_rstPlan_of_rstLevel hr) hnoReset
  case peer => exact framedInv_of_block hp.block hu
  case micro => exact framedInv_micro hb hm hp h
  case idle => exact hu
  case accepted => exact framedInv_accept (s := s.afterRstLevel) hb hport hl hc hu
  case rejected => exact framedInv_reject (s := s.afterRstLevel) hport hl hu

/-- Settles O51: every step keeps the invariant (`step_framedInv`), which says that nothing is marked. -/
theorem framedHostNeverViolates : Obligations.FramedHostNeverViolates := by
  intro s t h hst
  have ht : FramedInv t := step_framedInv h hst
  have ⟨hviol, _, _⟩ := ht
  exact ⟨ht, hviol⟩

/-! ### How long a command keeps the block busy (70_reset_and_hazards.md R215) -/

/-- No trace begins with a `Wait`, so that the delay counter is always loaded before one (log 23). -/
theorem traceOf_head_not_wait (op : Op) (arg : Byte) : ∃ m ms, traceOf op arg = m :: ms ∧ m.isWait = false := by
  cases op <;> exact ⟨_, _, rfl, rfl⟩

theorem accept_currentMicro_not_wait (op : Op) (arg : Byte) (s : State) :
    ∃ m, (accept op arg s).currentMicro = some m ∧ m.isWait = false := by
  obtain ⟨m, ms, htrace, hm⟩ := traceOf_head_not_wait op arg
  refine ⟨m, ?_, hm⟩
  rw [State.currentMicro, accept_trace, accept_idx, htrace]
  rfl

/-- Settles O60: the accepted operation has its whole trace before it, and `clockRun_rest` counts the edges of that. -/
theorem busyLastsAsTheTimingTableSays : Obligations.BusyLastsAsTheTimingTableSays := by
  intro s op arg h ha
  obtain ⟨-, haccept, -⟩ := exec_run op arg ha h
  obtain ⟨-, hplan, hserial⟩ := h
  have hq : (accept op arg s).Quiet :=
    ⟨(accept_rstPlan op arg s).trans hplan, (accept_serialIn op arg s).trans hserial⟩
  have hload : (accept op arg s).currentMicro = some .wait → (accept op arg s).dly = delayCycles - 1 := by
    intro hwait
    obtain ⟨m, hm, hne⟩ := accept_currentMicro_not_wait op arg s
    cases hwait.symm.trans hm
    cases hne
  refine ⟨accept op arg s, haccept, ?_⟩
  rw [← busyCycles_eq]
  exact clockRun_rest (traceOf op arg) rfl hq (rest_accept op arg s) (traceOf_ne_nil op arg) hload

/-! ### The figures of a trace (R215) -/

/-- The columns of R215's table: micro-operations, delays, the others, and rising writes of the clock. -/
def timingFigures (T : List MicroOp) : Nat × Nat × Nat × Nat :=
  (T.length, T.countP MicroOp.isWait, T.countP (fun m => !m.isWait), T.countP (· == .setPin .clk true))

theorem timingFigures_append (S T : List MicroOp) : timingFigures (S ++ T) = timingFigures S + timingFigures T := by
  simp only [timingFigures, List.length_append, List.countP_append, Prod.mk_add_mk]

theorem timingFigures_byteSeq (v : Byte) : timingFigures (byteSeq v) = (48, 24, 24, 8) := rfl

theorem timingFigures_byteRun (v : Byte) (n : Nat) :
    timingFigures (byteRun v n) = (48 * n, 24 * n, 24 * n, 8 * n) := by
  induction n with
  | zero => rfl
  | succ n ih =>
    simp only [byteRun, timingFigures_append, timingFigures_byteSeq, ih, Prod.mk_add_mk, Nat.mul_succ, Nat.add_comm]

theorem timingFigures_scanByte (k : Fin 4) : timingFigures (scanByte k) = (49, 24, 25, 8) := rfl

/-- Settles O35: the figures of a trace are the sums of those of its sequences (`timingFigures_append`). -/
theorem traceFigures : Obligations.TraceFigures := by
  intro v
  refine ⟨rfl, rfl, rfl, timingFigures_byteSeq v, ?readKeyboard, ?setBrightness, ?clearDisplay⟩
  case readKeyboard =>
    show timingFigures traceReadKeyboard = _
    simp only [traceReadKeyboard, timingFigures_append, timingFigures_byteSeq, timingFigures_scanByte]
    rfl
  case setBrightness =>
    show timingFigures (traceSetBrightness v) = _
    simp only [traceSetBrightness, timingFigures_append, timingFigures_byteSeq]
    rfl
  case clearDisplay =>
    show timingFigures traceClearDisplay = _
    simp only [traceClearDisplay, timingFigures_append, timingFigures_byteSeq, timingFigures_byteRun]
    rfl

/-! ### The reset state (R201) -/

/-- A state with no word to come, no reset planned and nothing marked keeps the discipline. -/
theorem framedInv_noWord {s : State} (hviol : s.viol = ViolSet.empty) (hplan : s.rstPlan = []) (hport : s.port = []) :
    FramedInv s := by
  refine ⟨hviol, ?_, ?_⟩
  · rw [hplan]
    exact List.not_mem_nil
  · rw [hport]
    rfl

/-- Settles O43: the outputs are evaluated; the reset state is idle, so that its invariants speak of its pins and its
accumulator as they are (`atRestInv_idle`, `accInv_idle`), and it has no mark, no word and an empty delay counter. -/
theorem resetStateOutputsAndInvariants : Obligations.ResetStateOutputsAndInvariants := by
  refine ⟨by decide, by decide, rfl, rfl, rfl, ?sequencer, ?atRest, ?acc, ?peer, rfl, ?framed, ?dly⟩
  case sequencer => exact fun hb => nomatch hb
  case atRest => exact (atRestInv_idle rfl).mpr ⟨rfl, rfl, fun h => nomatch h⟩
  case acc => exact (accInv_idle rfl).mpr rfl
  case peer => exact fun hmarked => absurd rfl hmarked
  case framed => exact framedInv_noWord rfl rfl rfl
  case dly => exact Nat.two_pow_pos dlyWidth

end Sys2Proof.Machine
end
